-- ==== Sys2Proof/Word.lean ====
section
/-! DEFINITION. The word, byte and block types of the engine (00_scope.md R9, R10, R13), and the five-word state. -/

namespace Sys2Proof

/-- A word: an unsigned 32-bit value (R10, parameter `WORD` of R9). -/
abbrev Word := BitVec 32

/-- A byte: an unsigned 8-bit value (R10). -/
abbrev Byte := BitVec 8

/-- A byte string, first byte first (R13). -/
abbrev Bytes := List Byte

/-- An operand packet: a byte string of any length (R74). -/
abbrev Packet := Bytes

/-- A block: 64 consecutive bytes (R9, R17). The length is part of the type, as R120 asks. -/
abbrev Block := Vector Byte 64

/-- HashState, the five words `H[0..4]` (10_state.md R22). -/
structure HashState where
  h0 : Word
  h1 : Word
  h2 : Word
  h3 : Word
  h4 : Word
  deriving DecidableEq, Repr

/-- Five zero words: what `FINAL` leaves in `H` (R180). -/
def HashState.zero : HashState := ⟨0, 0, 0, 0, 0⟩

end Sys2Proof
end

