-- ==== Sys2Proof/Config.lean ====
section
/-! DEFINITION. The parameters of 00_scope.md R9, and the one free value of the model. -/

namespace Sys2Proof

/-- `BLOCK_SIZE`, in bytes (R9, R28). -/
def Config.blockSize : Nat := 64

/-- `DIGEST_SIZE`, in bytes (R9, R28). -/
def Config.digestSize : Nat := 20

/-- `COUNT_MAX` (R9, D10; the threshold is exact, 90_conflicts.md C6). -/
def Config.countMax : Nat := 2 ^ 61 - 1

/-- The number of contexts that `State.reset` has. DESIGN CHOICE (unsafe, log entry 1): R9 and D3 leave `NCTX`
open in 1..16; a machine in any state has as many contexts as its `State.ctxs` is long. -/
def Config.resetContexts : Nat := 16

/-- `IV[0..4]` (10_state.md R21). PRESUMED (unsafe, log entry 4): the spec itself takes the five values from
general knowledge (D20, G1) and gives them as the default of this parameter. -/
def Config.iv : HashState := ⟨0x67452301, 0xefcdab89, 0x98badcfe, 0x10325476, 0xc3d2e1f0⟩

/-- FREE VALUE (safe, log entry 3): the `w`-bit value that register number `reg` of context `ctx` holds after the
reset event number `draw`, which R290 calls unspecified. It has no body: nothing can be proved of it. -/
opaque Config.freeBits : (w draw ctx reg : Nat) → BitVec w

end Sys2Proof
end

