-- ==== Sys2Proof/Syntax.lean ====
section
/-! DEFINITION. The commands (30_encoding.md R70, R72): the command word with its packets as the host presents it,
and the instruction it denotes, one constructor per row of opcode_table.json. -/

namespace Sys2Proof

/-- What the host presents: one 8-bit command word and its operand packets, in order (R70). -/
structure Command where
  word    : BitVec 8
  packets : List Packet
  deriving DecidableEq, Repr

/-- A command that has decoded (R77 step 3). Each constructor keeps the operand packets as they came, so that a
command that is not well-framed (R73) is still a command and ends with `ERR_INPUT` (R252); the three context
commands keep their 4-bit `ctx` field (R71). -/
inductive Instr where
  /-- `INIT ctx`, no operand (R150). -/
  | init (ctx : BitVec 4) (packets : List Packet)
  /-- `FEED ctx, data` (R151). -/
  | feed (ctx : BitVec 4) (packets : List Packet)
  /-- `FINAL ctx`, no operand (R180). -/
  | final (ctx : BitVec 4) (packets : List Packet)
  /-- `DIGEST data` (R200). -/
  | digest (packets : List Packet)
  /-- `COMBINE left, right` (R201). -/
  | combine (packets : List Packet)
  /-- `AUTH data, key` (R225). -/
  | auth (packets : List Packet)
  deriving DecidableEq, Repr

/-- The operand packets that came with the command. -/
def Instr.packets : Instr → List Packet
  | .init _ ps => ps
  | .feed _ ps => ps
  | .final _ ps => ps
  | .digest ps => ps
  | .combine ps => ps
  | .auth ps => ps

/-- The context a command selects: the `ctx` field of `INIT`, `FEED`, `FINAL`; none for the derived commands (R71). -/
def Instr.selects : Instr → Option (BitVec 4)
  | .init ctx _ => some ctx
  | .feed ctx _ => some ctx
  | .final ctx _ => some ctx
  | .digest _ => none
  | .combine _ => none
  | .auth _ => none

end Sys2Proof
end

