-- ==== Sys2Proof/WellFormed.lean ====
section
/-! DEFINITION. What makes a command well-formed: its context exists (30_encoding.md R76 (b)) and its packets are
as many as its operands (R73). -/

namespace Sys2Proof

/-- The operand count of R72. -/
def Instr.operandCount : Instr → Nat
  | .init _ _ => 0
  | .feed _ _ => 1
  | .final _ _ => 0
  | .digest _ => 1
  | .combine _ => 2
  | .auth _ => 2

/-- The command word that denotes this command is legal on a machine with `nctx` contexts (R76). -/
def Instr.legal (nctx : Nat) (i : Instr) : Bool :=
  match i.selects with
  | some ctx => decide (ctx.toNat < nctx)
  | none => true

/-- Well-framed: as many packets as operands (R73). -/
def Instr.framed (i : Instr) : Bool :=
  decide (i.packets.length = i.operandCount)

/-- Legal and well-framed: neither `ERR_ILLEGAL` nor `ERR_INPUT` applies to it. -/
def Instr.wellFormed (nctx : Nat) (i : Instr) : Bool :=
  i.legal nctx && i.framed

end Sys2Proof
end

