-- ==== Sys2Proof/Decode.lean ====
section
/-! DEFINITION. The decoder of 30_encoding.md R77, total over all 256 words and rejecting by name, and the encoder
of the same table (R72), in one file. -/

namespace Sys2Proof

/-- Why a command word is illegal: the three clauses of R76. Each ends in the response `ERR_ILLEGAL`. -/
inductive IllegalWord where
  /-- (a) `op` is `0x0` or in `0x7..0xf`. -/
  | reservedOp
  /-- (b) a context command with `ctx >= NCTX`. -/
  | noSuchContext
  /-- (c) a derived command with `ctx != 0`. -/
  | contextNotZero
  deriving DecidableEq, Repr

/-- The field `op` of the format `CMD8`, bits 3:0 (R71). -/
def opField (w : BitVec 8) : BitVec 4 := w.extractLsb' 0 4

/-- The field `ctx` of the format `CMD8`, bits 7:4 (R71). -/
def ctxField (w : BitVec 8) : BitVec 4 := w.extractLsb' 4 4

/-- R76 (b): a context command is illegal when its context does not exist. -/
def decodeContextCommand (nctx : Nat) (ctx : BitVec 4) (i : Instr) : Except IllegalWord Instr :=
  if ctx.toNat < nctx then .ok i else .error .noSuchContext

/-- R76 (c): a derived command is illegal when its `ctx` field is not zero. -/
def decodeDerivedCommand (ctx : BitVec 4) (i : Instr) : Except IllegalWord Instr :=
  if ctx = 0 then .ok i else .error .contextNotZero

/-- Decoding, in the order of R77, on a machine with `nctx` contexts: split the word, refuse it by R76, or answer the
command it denotes. Framing is not decoding (R77 step 4): any number of packets decodes. -/
def decode (nctx : Nat) (c : Command) : Except IllegalWord Instr :=
  match opField c.word with
  | 0x1#4 => decodeContextCommand nctx (ctxField c.word) (.init (ctxField c.word) c.packets)
  | 0x2#4 => decodeContextCommand nctx (ctxField c.word) (.feed (ctxField c.word) c.packets)
  | 0x3#4 => decodeContextCommand nctx (ctxField c.word) (.final (ctxField c.word) c.packets)
  | 0x4#4 => decodeDerivedCommand (ctxField c.word) (.digest c.packets)
  | 0x5#4 => decodeDerivedCommand (ctxField c.word) (.combine c.packets)
  | 0x6#4 => decodeDerivedCommand (ctxField c.word) (.auth c.packets)
  | _ => .error .reservedOp

/-- The operation code of R72. -/
def opcode : Instr → BitVec 4
  | .init _ _ => 0x1#4
  | .feed _ _ => 0x2#4
  | .final _ _ => 0x3#4
  | .digest _ => 0x4#4
  | .combine _ => 0x5#4
  | .auth _ => 0x6#4

/-- The `ctx` field of the word: the context, or `0000` for the derived commands (R71). -/
def contextBits (i : Instr) : BitVec 4 := i.selects.getD 0

/-- The encoding of a command: its word (R71, R72) and its packets in order (R78). -/
def encode (i : Instr) : Command :=
  ⟨contextBits i ++ opcode i, i.packets⟩

/-- How many operands the operation code of a word takes (R72); none for a reserved one. -/
def operandCountOfWord (w : BitVec 8) : Nat :=
  match opField w with
  | 0x2#4 => 1
  | 0x4#4 => 1
  | 0x5#4 => 2
  | 0x6#4 => 2
  | _ => 0

/-- The opcode table gives a command's operands no bits. DESIGN CHOICE (safe, log entry 5): a word of the table comes
with its operands all zero, as many packets as it takes, each of 20 zero bytes (the one length `COMBINE` accepts). -/
def tableCommand (w : Nat) : Command :=
  ⟨BitVec.ofNat 8 w, List.replicate (operandCountOfWord (BitVec.ofNat 8 w)) (List.replicate 20 0#8)⟩

/-- The instruction the decoder reads from a word of opcode_table.json, whose rows are all 8 bits wide (R71: "The
length of a command word is always 8 bits"), on a machine with as many contexts as `State.reset` has. -/
def decodeTableWord (nbits w : Nat) : Option Instr :=
  if nbits = 8 then (decode Config.resetContexts (tableCommand w)).toOption else none

end Sys2Proof
end

