-- ==== Sys2Proof/Machine/Bytes.lean ====
section
/-! DEFINITION. The conversions between bytes and wider values (00_scope.md R13, R14; 20_memory.md R52 to R54). -/

namespace Sys2Proof.Machine

/-- `rep(v, n)`: `n` copies of byte `v` (R13). -/
def rep (v : Byte) (n : Nat) : Bytes := List.replicate n v

/-- `BE32(w)` (R14): four bytes, the most significant first. -/
def be32Bytes (w : Word) : Bytes :=
  [w.extractLsb' 24 8, w.extractLsb' 16 8, w.extractLsb' 8 8, w.extractLsb' 0 8]

/-- `BE64(v)` (R14): eight bytes, the most significant first. -/
def be64Bytes (v : BitVec 64) : Bytes :=
  [v.extractLsb' 56 8, v.extractLsb' 48 8, v.extractLsb' 40 8, v.extractLsb' 32 8,
   v.extractLsb' 24 8, v.extractLsb' 16 8, v.extractLsb' 8 8, v.extractLsb' 0 8]

/-- `be32(s, o)` (R14): the word whose four bytes are `s[o] .. s[o+3]`, the first the most significant. R14 gives it for
offsets inside the string; a missing byte counts as zero here and no rule asks for one (log entry 15). -/
def be32 (s : Bytes) (o : Nat) : Word :=
  s.getD o 0 ++ s.getD (o + 1) 0 ++ s.getD (o + 2) 0 ++ s.getD (o + 3) 0

/-- The 64 bytes of a byte string of length 64 as a block. A shorter string is filled with zero bytes and a longer one
cut; every caller of the rules gives exactly 64 bytes (R120; log entry 15). -/
def toBlock (s : Bytes) : Block :=
  ⟨((s ++ List.replicate 64 0).take 64).toArray, by simp⟩

/-- The digest of five state words (R53): their `BE32`, in order. -/
def serialise (h : HashState) : Bytes :=
  be32Bytes h.h0 ++ be32Bytes h.h1 ++ be32Bytes h.h2 ++ be32Bytes h.h3 ++ be32Bytes h.h4

end Sys2Proof.Machine
end

