-- ==== Sys2Proof/Machine/Round.lean ====
section
/-! DEFINITION. The round primitives (40_round_primitives.md R100 to R107): pure functions of 32-bit words. `+32` is
`BitVec` addition (R106), `AND`, `OR`, `XOR`, `NOT` its bitwise operators (R107). -/

namespace Sys2Proof.Machine

/-- `ROTL(x, n)`, `1 <= n <= 31` (R100): bit `j` moves to bit `(j + n) mod 32`. -/
def rotl (x : Word) (n : Nat) : Word := (x <<< n) ||| (x >>> (32 - n))

/-- `CH(b, c, d)` (R101). PRESUMED (unsafe, log entry 4): the body is the spec's from general knowledge (D21, G2). -/
def ch (b c d : Word) : Word := (b &&& c) ||| (~~~b &&& d)

/-- `PARITY(b, c, d)` (R102). -/
def parity (b c d : Word) : Word := b ^^^ c ^^^ d

/-- `MAJ(b, c, d)` (R103). PRESUMED (unsafe, log entry 4): the body is the spec's from general knowledge (D21, G3). -/
def maj (b c d : Word) : Word := (b &&& c) ||| (b &&& d) ||| (c &&& d)

/-- The stage of round `i` (R105). -/
def stage (i : Nat) : Nat := i / 20

/-- `K[s]` (R104), for the stages 0 to 3. -/
def roundConstant : Nat → Word
  | 0 => 0x5a827999
  | 1 => 0x6ed9eba1
  | 2 => 0x8f1bbcdc
  | _ => 0xca62c1d6

/-- `F[s](b, c, d)` (R105), for the stages 0 to 3. -/
def roundFunction : Nat → Word → Word → Word → Word
  | 0 => ch
  | 1 => parity
  | 2 => maj
  | _ => parity

end Sys2Proof.Machine
end

