-- ==== Sys2Proof/Machine/Schedule.lean ====
section
/-! DEFINITION. The message schedule expander (41_schedule_expander.md R120 to R122): a pure function from one block to
`W[0..79]`. -/

namespace Sys2Proof.Machine

/-- `W[0..15]` (R120, R52): sixteen big-endian words of the block. -/
def loadWords (blk : Block) : List Word :=
  (List.range 16).map fun i => be32 blk.toList (4 * i)

/-- The next slot of a schedule whose slots so far are `w`, for `i = len(w) >= 16` (R121). -/
def nextWord (w : List Word) : Word :=
  rotl (w.getD (w.length - 3) 0 ^^^ w.getD (w.length - 8) 0 ^^^ w.getD (w.length - 14) 0
    ^^^ w.getD (w.length - 16) 0) 1

/-- `k` more slots, in increasing order of `i` (R121). -/
def extendSchedule : Nat → List Word → List Word
  | 0, w => w
  | k + 1, w => extendSchedule k (w ++ [nextWord w])

/-- `EXPAND(blk)` (R120, R121): the eighty words `W[0..79]`. -/
def expand (blk : Block) : List Word := extendSchedule 64 (loadWords blk)

end Sys2Proof.Machine
end

