-- ==== Sys2Proof/Machine/Compress.lean ====
section
/-! DEFINITION. The compression engine (42_compression_engine.md R130 to R135), as the pure function of R130. -/

namespace Sys2Proof.Machine

/-- The working variables (10_state.md R29); no value between blocks. -/
structure Working where
  a : Word
  b : Word
  c : Word
  d : Word
  e : Word
  deriving DecidableEq, Repr

/-- Seed (R131). -/
def seed (h : HashState) : Working := ⟨h.h0, h.h1, h.h2, h.h3, h.h4⟩

/-- Round `i` with schedule word `w` (R132): all five are written from the values at the start of the round. -/
def roundStep (i : Nat) (w : Word) (v : Working) : Working where
  a := rotl v.a 5 + roundFunction (stage i) v.b v.c v.d + v.e + w + roundConstant (stage i)
  b := v.a
  c := rotl v.b 30
  d := v.c
  e := v.d

/-- The rounds from `i` on, one per remaining schedule word, in increasing order (R132). -/
def rounds : Nat → List Word → Working → Working
  | _, [], v => v
  | i, w :: ws, v => rounds (i + 1) ws (roundStep i w v)

/-- Feed-forward (R133): the five variables added into `H`, together. -/
def feedForward (h : HashState) (v : Working) : HashState :=
  ⟨h.h0 + v.a, h.h1 + v.b, h.h2 + v.c, h.h3 + v.d, h.h4 + v.e⟩

/-- `COMPRESS` as a pure function (R130): schedule, seed, 80 rounds, feed-forward. -/
def compress (h : HashState) (blk : Block) : HashState :=
  feedForward h (rounds 0 (expand blk) (seed h))

/-- `COMPRESS` applied in order to the first `q` blocks of a byte string (R134): `s[0..64)`, `s[64..128)`, ... -/
def compressBlocks : Nat → HashState → Bytes → HashState
  | 0, h, _ => h
  | q + 1, h, s => compressBlocks q (compress h (toBlock (s.take 64))) (s.drop 64)

end Sys2Proof.Machine
end

