-- ==== Sys2Proof/Machine/State.lean ====
section
/-! DEFINITION. The architectural state (10_state.md), its reset value (R34), and the reasons a step can stop. -/

namespace Sys2Proof.Machine

/-- `PHASE`, the per-context state machine (R26). The 2-bit codes are `Phase.code`; "A model may use an enumeration"
(D18). -/
inductive Phase where
  /-- 0: never initialised since reset. -/
  | uninit
  /-- 1: `INIT` was the last successful command; nothing fed. -/
  | initialized
  /-- 2: at least one non-empty `FEED` since the last `INIT`. -/
  | accum
  /-- 3: `FINAL` was the last successful command. -/
  | finalized
  deriving DecidableEq, Repr

/-- One streaming context `CTX[n]` (R20): the registers of R22 to R26. -/
structure Context where
  /-- `H[0..4]` (R22). -/
  h      : HashState
  /-- `BUF[0..63]` (R23). -/
  buf    : Block
  /-- `BUFLEN`, 7 bits (R24). -/
  buflen : BitVec 7
  /-- `COUNT`, 61 bits (R25). -/
  count  : BitVec 61
  /-- `PHASE` (R26). -/
  phase  : Phase
  deriving DecidableEq, Repr

/-- The outcomes a command can have (R251). The 8-bit codes are `Status.code`; no other code is ever produced. -/
inductive Status where
  | ok
  | errInput
  | errLength
  | errUsage
  | errOverflow
  | errIllegal
  deriving DecidableEq, Repr

/-- A response (R75): a status and a result byte string. -/
structure Response where
  status : Status
  bytes  : Bytes
  deriving DecidableEq, Repr

/-- What the host does to the engine between commands: issue a command (R70) or apply reset (R290). -/
inductive HostEvent where
  | command (c : Command)
  | reset
  deriving DecidableEq, Repr

/-- The whole machine between two commands. -/
structure State where
  /-- `CTX[0] .. CTX[NCTX-1]` (R20); the length is `NCTX`. -/
  ctxs      : List Context
  /-- `FAULT` (R27). -/
  fault     : Bool
  /-- The command and data ports (R70): what the host has issued and the engine has not yet taken, oldest first. The
  model's own queue: DEDUCED (safe, log entry 5). -/
  input     : List HostEvent
  /-- The response port (R75): every response delivered, oldest first. The model's own history (log entry 6). -/
  responses : List Response
  /-- The model's own counter of reset events drawn (log entry 3); the free values of R290 are taken at it. -/
  free      : Nat
  deriving DecidableEq, Repr

/-- Why the machine would stop with a fault: no reason exists. An error is a response delivered in place of the normal
one, after which "the engine accepts the next command exactly as after an `OK` response" (60_exceptions.md R250, R261),
so nobody raises a fault and the type has no constructor (log entry 8; safe). -/
inductive Fault where
  deriving DecidableEq, Repr

/-- Why a step would have no meaning. -/
inductive Refusal where
  /-- Raised only by an arm of `exec` for an instruction without a meaning; no arm is left without one. Safe: it stops
  where the hardware goes on. -/
  | notModelled (mnemonic : String)
  deriving DecidableEq, Repr

/-- `NCTX` of this machine (R9, R20). -/
def State.nctx (s : State) : Nat := s.ctxs.length

/-- A context right after reset (R34): `PHASE` is `UNINIT`. The other registers are unspecified there; DESIGN CHOICE
(unsafe, log entry 2): zero. No command reads them (R34). -/
def Context.reset : Context :=
  ⟨HashState.zero, Vector.replicate 64 0, 0, 0, .uninit⟩

/-- The machine with `nctx` contexts right after reset (R34), with nothing issued and nothing answered yet. -/
def State.resetWith (nctx : Nat) : State :=
  ⟨List.replicate nctx Context.reset, false, [], [], 0⟩

/-- The machine right after reset (R34, R290). The number of contexts is a DESIGN CHOICE (unsafe, log entry 1). -/
def State.reset : State := State.resetWith Config.resetContexts

end Sys2Proof.Machine
end

