-- ==== Sys2Proof/Machine/Operands.lean ====
section
/-! DEFINITION. The operand forms (30_encoding.md R72, R73): none, one or two packets, and `ERR_INPUT` (R252) for any
other number. -/

namespace Sys2Proof.Machine

/-- No operand: `INIT` and `FINAL`. -/
def noOperand : List Packet → Except Status Unit
  | [] => .ok ()
  | _ :: _ => .error .errInput

/-- One operand: `FEED` and `DIGEST`. -/
def oneOperand : List Packet → Except Status Packet
  | [data] => .ok data
  | [] => .error .errInput
  | _ :: _ :: _ => .error .errInput

/-- Two operands, in the order sent: `COMBINE` (left, right) and `AUTH` (data, key). -/
def twoOperands : List Packet → Except Status (Packet × Packet)
  | [first, second] => .ok (first, second)
  | [] => .error .errInput
  | [_] => .error .errInput
  | _ :: _ :: _ :: _ => .error .errInput

end Sys2Proof.Machine
end

