-- ==== Sys2Proof/Machine/Flags.lean ====
section
/-! DEFINITION. The status-like state (10_state.md R33: "The nearest thing to status flags is `PHASE` (per context) and
`FAULT` (global)"): codes, what each command requires of `PHASE` and leaves in it (43_streaming_context.md R163), and
what sets `FAULT` (60_exceptions.md R258). -/

namespace Sys2Proof.Machine

/-- The 2-bit code of a phase (R26). -/
def Phase.code : Phase → BitVec 2
  | .uninit => 0
  | .initialized => 1
  | .accum => 2
  | .finalized => 3

/-- The phases in which `FEED` and `FINAL` are legal: `INITIALIZED` and `ACCUM` (R163, R254). -/
def Phase.isOpen : Phase → Bool
  | .uninit => false
  | .initialized => true
  | .accum => true
  | .finalized => false

/-- `PHASE` after a successful `INIT`, whatever it was (R163). -/
def Phase.afterInit : Phase := .initialized

/-- `PHASE` after a successful `FEED` of `n` bytes: a no-op on empty, else `ACCUM` (R163, D15). -/
def Phase.afterFeed (p : Phase) (n : Nat) : Phase := if n = 0 then p else .accum

/-- `PHASE` after a successful `FINAL` (R163). -/
def Phase.afterFinal : Phase := .finalized

/-- The 8-bit status code (R251). -/
def Status.code : Status → BitVec 8
  | .ok => 0x00
  | .errInput => 0x01
  | .errLength => 0x02
  | .errUsage => 0x03
  | .errOverflow => 0x04
  | .errIllegal => 0x05

/-- Which statuses set `FAULT`: `ERR_USAGE` and `ERR_OVERFLOW` and no other (R250 (3), R251). -/
def Status.setsFault : Status → Bool
  | .ok => false
  | .errInput => false
  | .errLength => false
  | .errUsage => true
  | .errOverflow => true
  | .errIllegal => false

/-- `FAULT` after a command that ends with status `e`: sticky (R27, R258). -/
def faultAfter (fault : Bool) (e : Status) : Bool := fault || e.setsFault

/-- The order in which errors are reported, 1 the first (R257). -/
def Status.priority : Status → Nat
  | .errIllegal => 1
  | .errInput => 2
  | .errLength => 3
  | .errUsage => 4
  | .errOverflow => 5
  | .ok => 6

/-- The output pin `fault` (R27): the level of `FAULT` (R260). -/
def State.faultPin (s : State) : Bool := s.fault

/-- The bytes of a response as the host receives them: the 8-bit status, then the result (R75). -/
def Response.wire (r : Response) : Bytes := r.status.code :: r.bytes

end Sys2Proof.Machine
end

