-- ==== Sys2Proof/Machine/Ops.lean ====
section
/-! DEFINITION. The named operations over the machine: selecting and replacing a context, `MemRead` and `MemWrite` on
`BUF` (00_scope.md R15), delivering a response (30_encoding.md R75), raising an error (60_exceptions.md R250), ending
a command, and the reset event (70_reset_and_hazards.md R290). -/

namespace Sys2Proof.Machine

/-- `CTX[ctx]`, or `ERR_ILLEGAL` where `ctx >= NCTX` (R76 (b), R256). -/
def State.selectContext (s : State) (ctx : BitVec 4) : Except Status Context :=
  match s.ctxs[ctx.toNat]? with
  | some c => .ok c
  | none => .error .errIllegal

/-- `CTX[ctx] <- c`; every other context keeps its registers (R61). -/
def State.setContext (s : State) (ctx : BitVec 4) (c : Context) : State :=
  { s with ctxs := s.ctxs.set ctx.toNat c }

/-- `MemRead(c, addr, n)` (R15): the bytes `c.BUF[addr .. addr+n)`. -/
def memRead (c : Context) (addr n : Nat) : Bytes :=
  (c.buf.toList.drop addr).take n

/-- `MemWrite(c, addr, len(s), s)` (R15): `c.BUF[addr + j] <- s[j]`. R15 requires `addr + len(s) <= 64`, which every
rule's use meets (log entry 15). The other bytes keep their values: DEDUCED (unsafe at index `>= BUFLEN`, log entry 9). -/
def memWrite (c : Context) (addr : Nat) (s : Bytes) : Context :=
  { c with buf := toBlock (c.buf.toList.take addr ++ s ++ c.buf.toList.drop (addr + s.length)) }

/-- `respond(status, bytes)` (R15, R75): deliver one response. -/
def State.respond (s : State) (status : Status) (bytes : Bytes) : State :=
  { s with responses := s.responses ++ [⟨status, bytes⟩] }

/-- `raise E` (R250): nothing the command has written is kept, `FAULT` is set by `ERR_USAGE` and `ERR_OVERFLOW`, and the
response is `(E, empty)`. `s` is the state in which the command started. -/
def State.raise (s : State) (e : Status) : State :=
  { s with fault := faultAfter s.fault e }.respond e []

/-- The end of a command that started in `s`: either its checks raised an error, or it answers the state it leaves and
its result bytes, delivered with status `OK`. One response either way (R75). -/
def State.complete (s : State) (r : Except Status (State × Bytes)) : Host.Outcome State Fault Refusal :=
  match r with
  | .ok (t, bytes) => .next (t.respond .ok bytes)
  | .error e => .next (s.raise e)

/-- What the response to an illegal command word is (R76, R256): `ERR_ILLEGAL`, and nothing changes. The packets that came
with the word are discarded. -/
def State.illegalWord (s : State) : Host.Outcome State Fault Refusal :=
  .next (s.raise .errIllegal)

/-- A context after a reset event (R290): `PHASE <- UNINIT`; `H`, `BUF`, `BUFLEN`, `COUNT` "become unspecified": free
values. DESIGN CHOICE (safe, log entry 3). -/
def unspecifiedContext (draw n : Nat) : Context where
  h := ⟨Config.freeBits 32 draw n 0, Config.freeBits 32 draw n 1, Config.freeBits 32 draw n 2,
        Config.freeBits 32 draw n 3, Config.freeBits 32 draw n 4⟩
  buf := Vector.ofFn fun j => Config.freeBits 8 draw n (5 + j)
  buflen := Config.freeBits 7 draw n 69
  count := Config.freeBits 61 draw n 70
  phase := .uninit

/-- The reset event (R290): every context to `UNINIT`, `FAULT <- 0`. No response belongs to it; the responses the host
has already received are the host's. -/
def State.applyReset (s : State) : State :=
  { s with
    ctxs := (List.range s.nctx).map (unspecifiedContext s.free)
    fault := false
    free := s.free + 1 }

/-- The next event the host has issued, taken off the port, with the state that is left; none where the host has issued
nothing (R60: commands take effect in the order the host issues them). -/
def State.takeEvent (s : State) : Option (HostEvent × State) :=
  match s.input with
  | [] => none
  | e :: rest => some (e, { s with input := rest })

/-- The host issues one more command, to be taken next. -/
def State.issueFirst (s : State) (c : Command) : State :=
  { s with input := .command c :: s.input }

end Sys2Proof.Machine
end

