-- ==== Sys2Proof/Machine/Stream.lean ====
section
/-! DEFINITION. The streaming context, commands `INIT` and `FEED` (43_streaming_context.md R150, R151). The operations
on a context are the rules' pseudocode with `respond` left out, so that the derived commands can use them on private
contexts; a command's meaning applies one to `CTX[ctx]`. -/

namespace Sys2Proof.Machine

/-- `INIT(c)` (R150). `BUF` is not written (90_conflicts.md C12). -/
def initContext (c : Context) : Context :=
  { c with h := Config.iv, count := 0, buflen := 0, phase := Phase.afterInit }

/-- The phase check of `FEED` and `FINAL` (R254). -/
def requireOpen (c : Context) : Except Status Unit :=
  if c.phase.isOpen then .ok () else .error .errUsage

/-- The overflow check of `FEED` (R255): `COUNT + n > COUNT_MAX`, on natural numbers (R12). -/
def requireRoom (c : Context) (n : Nat) : Except Status Unit :=
  if c.count.toNat + n > Config.countMax then .error .errOverflow else .ok ()

/-- `COMPRESS(c, MemRead(c, 0, 64))` and `c.BUFLEN <- 0`: a full buffer handed to the compression engine (R151, R180). -/
def flushBuffer (c : Context) : Context :=
  { c with h := compress c.h (toBlock (memRead c 0 64)), buflen := 0 }

/-- `FEED`: append `s` at `BUFLEN` (R151: `MemWrite(c, c.BUFLEN, k, ..)`, `c.BUFLEN <- c.BUFLEN + k`). -/
def appendBuffer (c : Context) (s : Bytes) : Context :=
  { memWrite c c.buflen.toNat s with buflen := c.buflen + BitVec.ofNat 7 s.length }

/-- How many bytes of an `n`-byte operand top up a partly filled buffer (R151: `k`). -/
def topUpLength (c : Context) (n : Nat) : Nat :=
  if c.buflen.toNat = 0 then 0 else min (64 - c.buflen.toNat) n

/-- `FEED`: top up a partly filled buffer and flush it when it is full (R151); the rest of the operand is
`data[topUpLength ..)`. -/
def topUp (c : Context) (data : Bytes) : Context :=
  if c.buflen.toNat = 0 then c
  else if (appendBuffer c (data.take (topUpLength c data.length))).buflen.toNat = 64 then
    flushBuffer (appendBuffer c (data.take (topUpLength c data.length)))
  else appendBuffer c (data.take (topUpLength c data.length))

/-- `FEED`: the whole blocks of the rest, straight from the operand (R151). -/
def feedBlocks (c : Context) (rest : Bytes) : Context :=
  { c with h := compressBlocks (rest.length / 64) c.h rest }

/-- `FEED`: keep the remainder (R151). -/
def keepRemainder (c : Context) (rest : Bytes) : Context :=
  if rest.length % 64 = 0 then c else appendBuffer c (rest.drop (64 * (rest.length / 64)))

/-- `FEED`: the effects, after the checks, for a non-empty operand (R151). -/
def absorb (c : Context) (data : Bytes) : Context :=
  let c1 := { c with count := c.count + BitVec.ofNat 61 data.length }
  let rest := data.drop (topUpLength c1 data.length)
  { keepRemainder (feedBlocks (topUp c1 data) rest) rest with
    phase := c.phase.afterFeed data.length }

/-- `FEED(c, data)` (R151): the checks in order, then a no-op on empty, else the effects. -/
def feedContext (c : Context) (data : Bytes) : Except Status Context := do
  requireOpen c
  requireRoom c data.length
  if data.length = 0 then return c
  return absorb c data

/-- INIT ctx (R150). -/
def execInit (ctx : BitVec 4) (packets : List Packet) (s : State) : Host.Outcome State Fault Refusal :=
  s.complete do
    let c ← s.selectContext ctx
    noOperand packets
    return (s.setContext ctx (initContext c), [])

/-- FEED ctx, data (R151). -/
def execFeed (ctx : BitVec 4) (packets : List Packet) (s : State) : Host.Outcome State Fault Refusal :=
  s.complete do
    let c ← s.selectContext ctx
    let data ← oneOperand packets
    let c' ← feedContext c data
    return (s.setContext ctx c', [])

end Sys2Proof.Machine
end

