-- ==== Sys2Proof/Machine/Finalizer.lean ====
section
/-! DEFINITION. The finalizer, command `FINAL` (44_finalizer.md R180 to R184). -/

namespace Sys2Proof.Machine

/-- `bitlen` (R180, R54): `zext_64(COUNT) * 8`. -/
def bitLength (c : Context) : BitVec 64 := c.count.setWidth 64 * 8

/-- The marker byte `0x80` at `BUFLEN` (R180). -/
def writeMarker (c : Context) : Context := appendBuffer c [0x80]

/-- With no room for the trailer, zero-fill the block and compress it: the first of two extra blocks (R180, R182). -/
def spillBlock (c : Context) : Context :=
  if c.buflen.toNat > 56 then
    flushBuffer (memWrite c c.buflen.toNat (rep 0 (64 - c.buflen.toNat)))
  else c

/-- Zero-fill up to byte 56, write the trailer, compress: the last block (R180). -/
def lastBlock (c : Context) (bitlen : BitVec 64) : Context :=
  flushBuffer (memWrite (memWrite c c.buflen.toNat (rep 0 (56 - c.buflen.toNat))) 56 (be64Bytes bitlen))

/-- The padding part of `FINAL` (R180): one or two more blocks compressed into `H`. -/
def padAndCompress (c : Context) : Context :=
  lastBlock (spillBlock (writeMarker c)) (bitLength c)

/-- The wipe (R180). `BUF`, `BUFLEN` and `COUNT` by D14: DESIGN CHOICE (unsafe, log entry 10). -/
def wipeContext (c : Context) : Context :=
  { c with h := HashState.zero, buf := Vector.replicate 64 0, buflen := 0, count := 0, phase := Phase.afterFinal }

/-- `FINAL(c)` (R180): the wiped context and the digest, which is `H` after the last compression and before the wipe
(R183). -/
def finalContext (c : Context) : Except Status (Context × Bytes) := do
  requireOpen c
  return (wipeContext (padAndCompress c), serialise (padAndCompress c).h)

/-- FINAL ctx (R180). -/
def execFinal (ctx : BitVec 4) (packets : List Packet) (s : State) : Host.Outcome State Fault Refusal :=
  s.complete do
    let c ← s.selectContext ctx
    noOperand packets
    let (c', digest) ← finalContext c
    return (s.setContext ctx c', digest)

end Sys2Proof.Machine
end

