-- ==== Sys2Proof/Machine/Derived.lean ====
section
/-! DEFINITION. The derived operations `DIGEST` and `COMBINE` (45_derived_operations.md R200 to R203), on private
contexts. -/

namespace Sys2Proof.Machine

/-- A new private context (10_state.md R30): phase `UNINIT`; its other registers hold no value that is read.
DEDUCED (safe, log entry 7). -/
def privateContext : Context := Context.reset

/-- `DIGEST(data)` with `respond` left out (R200): `INIT`, `FEED`, `FINAL` on a private context, which is then discarded. -/
def digestBytes (data : Bytes) : Except Status Bytes := do
  let c ← feedContext (initContext privateContext) data
  let (_, digest) ← finalContext c
  return digest

/-- The length check of `COMBINE` (R201, R253). -/
def requireDigestLengths (left right : Bytes) : Except Status Unit :=
  if left.length ≠ Config.digestSize ∨ right.length ≠ Config.digestSize then .error .errLength else .ok ()

/-- `COMBINE(left, right)` with `respond` left out (R201). -/
def combineBytes (left right : Bytes) : Except Status Bytes := do
  requireDigestLengths left right
  digestBytes (left ++ right)

/-- DIGEST data (R200). -/
def execDigest (packets : List Packet) (s : State) : Host.Outcome State Fault Refusal :=
  s.complete do
    let data ← oneOperand packets
    let digest ← digestBytes data
    return (s, digest)

/-- COMBINE left, right (R201). -/
def execCombine (packets : List Packet) (s : State) : Host.Outcome State Fault Refusal :=
  s.complete do
    let (left, right) ← twoOperands packets
    let digest ← combineBytes left right
    return (s, digest)

end Sys2Proof.Machine
end

