-- ==== Sys2Proof/Machine/Hmac.lean ====
section
/-! DEFINITION. The generic HMAC wrapper (46_hmac_wrapper.md R220 to R224) over any digest engine, its SHA-1 instance
(R221), and the command `AUTH` (R225). No constant 64 or 20 appears in the wrapper itself. -/

namespace Sys2Proof.Machine

/-- A digest engine usable by the wrapper (R220), with contexts of its own kind `C`; `fresh` is a new private context. What R220
asks of it, `L <= B` included (log entry 13), is `Sys2Proof.LawfulEngine`. -/
structure Engine (C : Type) where
  blockSize  : Nat
  digestSize : Nat
  fresh      : C
  init       : C → C
  feed       : C → Bytes → Except Status C
  finalize   : C → Except Status (C × Bytes)

/-- `E.digest` (R222): initialise, feed, finalise on a private context. -/
def engineDigest {C : Type} (E : Engine C) (data : Bytes) : Except Status Bytes := do
  let c ← E.feed (E.init E.fresh) data
  let (_, digest) ← E.finalize c
  return digest

/-- The key made fit for the key block (R222): hashed where it is longer than a block, else as it is. -/
def shortKey {C : Type} (E : Engine C) (key : Bytes) : Except Status Bytes :=
  if key.length > E.blockSize then engineDigest E key else .ok key

/-- `KEYBLOCK[E](key)` (R222): zero-padded to the block size in both cases. PRESUMED (unsafe, log entry
13): the padding of a hashed key is the spec's decision (90_conflicts.md C5, D22). -/
def keyBlock {C : Type} (E : Engine C) (key : Bytes) : Except Status Bytes := do
  let k ← shortKey E key
  return k ++ rep 0 (E.blockSize - k.length)

/-- A pad (R223): the key block XORed bytewise with one byte, `0x36` for `IPADK`, `0x5c` for `OPADK`. -/
def padKey (v : Byte) (kb : Bytes) : Bytes := kb.map (· ^^^ v)

/-- HmacContext (R224): the two contexts it owns. -/
structure HmacContext (C : Type) where
  inner : C
  outer : C

/-- `HMAC_SETUP[E](key)` (R224). -/
def hmacSetup {C : Type} (E : Engine C) (key : Bytes) : Except Status (HmacContext C) := do
  let kb ← keyBlock E key
  let inner ← E.feed (E.init E.fresh) (padKey 0x36 kb)
  let outer ← E.feed (E.init E.fresh) (padKey 0x5c kb)
  return ⟨inner, outer⟩

/-- `HMAC_FEED[E](data)` (R224). -/
def hmacFeed {C : Type} (E : Engine C) (x : HmacContext C) (data : Bytes) : Except Status (HmacContext C) := do
  let inner ← E.feed x.inner data
  return { x with inner := inner }

/-- `HMAC_FINAL[E]()` (R224). The key material and the contexts are local values, gone when it answers (D16). -/
def hmacFinal {C : Type} (E : Engine C) (x : HmacContext C) : Except Status Bytes := do
  let (_, ih) ← E.finalize x.inner
  let outer ← E.feed x.outer ih
  let (_, tag) ← E.finalize outer
  return tag

/-- All three operations in one (R225, for any engine). -/
def hmac {C : Type} (E : Engine C) (data key : Bytes) : Except Status Bytes := do
  let x ← hmacSetup E key
  let x ← hmacFeed E x data
  hmacFinal E x

/-- The SHA-1 instance (R221): `INIT`, `FEED`, `FINAL` on private contexts. -/
def sha1Engine : Engine Context where
  blockSize := Config.blockSize
  digestSize := Config.digestSize
  fresh := privateContext
  init := initContext
  feed := feedContext
  finalize := finalContext

/-- AUTH data, key (R225). -/
def execAuth (packets : List Packet) (s : State) : Host.Outcome State Fault Refusal :=
  s.complete do
    let (data, key) ← twoOperands packets
    let tag ← hmac sha1Engine data key
    return (s, tag)

end Sys2Proof.Machine
end

