-- ==== Sys2Proof/Machine/Dispatch.lean ====
section
/-! DEFINITION. The meaning of every instruction: one arm per constructor of Instr, in the order of opcode_table.json. -/

namespace Sys2Proof.Machine

def exec (i : Instr) (s : State) : Host.Outcome State Fault Refusal :=
  match i with
  | .init ctx packets => Sys2Proof.Machine.execInit ctx packets s
  | .feed ctx packets => Sys2Proof.Machine.execFeed ctx packets s
  | .final ctx packets => Sys2Proof.Machine.execFinal ctx packets s
  | .digest packets => Sys2Proof.Machine.execDigest packets s
  | .combine packets => Sys2Proof.Machine.execCombine packets s
  | .auth packets => Sys2Proof.Machine.execAuth packets s

end Sys2Proof.Machine
end

