-- ==== Sys2Proof/Machine/Step.lean ====
section
/-! DEFINITION. One step: the engine takes the next event the host has issued and completes it (00_scope.md R7, R8). -/

namespace Sys2Proof.Machine

/-- One command, or one reset, as one atomic transition (R8, R58). With nothing issued the engine waits (R290; DESIGN
CHOICE, safe, log entry 5). A word that does not decode ends with `ERR_ILLEGAL` (R77 step 2); one that does is executed (R77 step 4). -/
def step (s : State) : Host.Outcome State Fault Refusal :=
  match s.takeEvent with
  | none => .next s
  | some (.reset, t) => .next t.applyReset
  | some (.command c, t) =>
    match decode t.nctx c with
    | .ok i => exec i t
    | .error _ => t.illegalWord

/-- The host issues the command of a table word (with its operands zero) to be taken next: there is no program counter
and no stored program (R32, R63), so that is what it takes to have `step` run it (log entry 5). -/
def State.withFetchWord (s : State) (_nbits w : Nat) : State := s.issueFirst (tableCommand w)

end Sys2Proof.Machine
end

