-- ==== Sys2Proof/Machine/Assembler.lean ====
section
/-! DEFINITION. The textual form of a command (30_encoding.md R78): six lines, no pseudo-instructions. A notation of the
spec, not a unit of the engine: no step uses it. -/

namespace Sys2Proof.Machine

/-- A decimal digit. -/
def decimalDigit (c : Char) : Option Nat :=
  if '0'.toNat ≤ c.toNat ∧ c.toNat ≤ '9'.toNat then some (c.toNat - '0'.toNat) else none

/-- A hexadecimal digit, lower case (R10: "bare lower-case hex"). -/
def hexDigit (c : Char) : Option Nat :=
  if 'a'.toNat ≤ c.toNat ∧ c.toNat ≤ 'f'.toNat then some (c.toNat - 'a'.toNat + 10) else decimalDigit c

/-- A decimal number of one or more digits, `acc` the value of the digits before. -/
def decimalFrom (acc : Nat) : List Char → Option Nat
  | [] => some acc
  | c :: cs => (decimalDigit c).bind fun d => decimalFrom (10 * acc + d) cs

/-- A decimal number. -/
def decimal : List Char → Option Nat
  | [] => none
  | c :: cs => decimalFrom 0 (c :: cs)

/-- A hex string, two digits per byte, first byte first (R78, R13). -/
def hexBytes : List Char → Option Bytes
  | [] => some []
  | [_] => none
  | c :: d :: cs =>
    match hexDigit c, hexDigit d, hexBytes cs with
    | some h, some l, some bs => some (BitVec.ofNat 8 (16 * h + l) :: bs)
    | _, _, _ => none

/-- The double quote. -/
def quote : Char := Char.ofNat 34

/-- The text up to a closing quote that ends the operand, as the bytes of its ASCII characters (R13; PRESUMED, safe, log entry 14). -/
def quotedBytes : List Char → Option Bytes
  | [] => none
  | [c] => if c = quote then some [] else none
  | c :: cs =>
    if c = quote ∨ 128 ≤ c.toNat then none
    else (quotedBytes cs).map fun bs => BitVec.ofNat 8 c.toNat :: bs

/-- `<n>*<hexbyte>`: `n` copies of one byte (R78). -/
def repeatedBytes (s : List Char) : Option Bytes :=
  match decimal (s.takeWhile (· ≠ '*')), s.dropWhile (· ≠ '*') with
  | some n, [_, h, l] => (hexBytes [h, l]).bind fun b => some ((List.replicate n b).flatten)
  | _, _ => none

/-- `<bytes>` of R78: `-`, a quoted string, a repetition, or a hex string. -/
def parseBytes (s : List Char) : Option Bytes :=
  if s = ['-'] then some []
  else match s with
    | [] => none
    | c :: cs =>
      if c = quote then quotedBytes cs
      else if s.contains '*' then repeatedBytes s
      else hexBytes s

/-- `<ctx>` of R78: a decimal number 0 to 15. -/
def parseContext (s : List Char) : Option (BitVec 4) :=
  (decimal s).bind fun n => if n < 16 then some (BitVec.ofNat 4 n) else none

/-- A piece of a line without the blanks before and after it; blanks inside it stay. -/
def trimBlanks (s : List Char) : List Char :=
  ((s.dropWhile (· = ' ')).reverse.dropWhile (· = ' ')).reverse

/-- The operands of a line: cut at every comma outside quotes, the blanks around each piece dropped. `cur` is the piece
being read, reversed. R78 gives six forms and says nothing of any other line; DESIGN CHOICE (safe, log entry 16): blanks
may stand around an operand and nowhere inside one, every comma separates two operands, and a line that is not of the six
forms assembles to nothing. -/
def splitOperands (inQuote : Bool) (cur : List Char) : List Char → List (List Char)
  | [] => [trimBlanks cur.reverse]
  | c :: cs =>
    if c = quote then splitOperands (!inQuote) (c :: cur) cs
    else if c = ',' ∧ inQuote = false then trimBlanks cur.reverse :: splitOperands inQuote [] cs
    else splitOperands inQuote (c :: cur) cs

/-- One line as a command (R78): the mnemonic, then its operands; nothing for a line outside the six forms (log entry 16). -/
def parseLine (line : List Char) : Option Instr :=
  let mnemonic := line.takeWhile (· ≠ ' ')
  match splitOperands false [] (line.dropWhile (· ≠ ' ')) with
  | [x] =>
    if mnemonic = "INIT".toList then (parseContext x).map fun c => .init c []
    else if mnemonic = "FINAL".toList then (parseContext x).map fun c => .final c []
    else if mnemonic = "DIGEST".toList then (parseBytes x).map fun d => .digest [d]
    else none
  | [x, y] =>
    if mnemonic = "FEED".toList then
      (parseContext x).bind fun c => (parseBytes y).map fun d => .feed c [d]
    else if mnemonic = "COMBINE".toList then
      (parseBytes x).bind fun l => (parseBytes y).map fun r => .combine [l, r]
    else if mnemonic = "AUTH".toList then
      (parseBytes x).bind fun d => (parseBytes y).map fun k => .auth [d, k]
    else none
  | _ => none

/-- The encoding of a line: its command word followed by its operand packets (R78). -/
def assemble (line : String) : Option Command := (parseLine line.toList).map encode

end Sys2Proof.Machine
end

