-- ==== Sys2Proof/Machine/Sha1.lean ====
section
/-! DEFINITION. The hash function as a whole (44_finalizer.md R181, R185) and the one-shot form of HMAC
(46_hmac_wrapper.md R226), as pure functions of byte strings: what statements hold the commands against. No meaning
calls them. -/

namespace Sys2Proof.Machine

/-- `z = (55 - N) mod 64`, the number of zero bytes of the padding (R181). -/
def padZeros (n : Nat) : Nat := ((55 - (n : Int)) % 64).toNat

/-- `PAD(N) = 80 ++ rep(00, z) ++ BE64(8 * N)` (R181). -/
def padding (n : Nat) : Bytes :=
  [0x80] ++ rep 0 (padZeros n) ++ be64Bytes (BitVec.ofNat 64 (8 * n))

/-- The state after the whole blocks of a byte string, from `IV`: `S_q` of R185. -/
def chain (m : Bytes) : HashState := compressBlocks (m.length / 64) Config.iv m

/-- `SHA1(M)` (R185): the blocks of `M ++ PAD(len(M))` compressed in order from `IV`, serialised. -/
def sha1 (m : Bytes) : Bytes := serialise (chain (m ++ padding m.length))

/-- The key block of the SHA-1 engine as a function of the key (R222 with `B` = 64, `L` = 20). -/
def sha1KeyBlock (key : Bytes) : Bytes :=
  if key.length > 64 then sha1 key ++ rep 0 (64 - (sha1 key).length) else key ++ rep 0 (64 - key.length)

/-- `SHA1(OPADK ++ SHA1(IPADK ++ data))` (R226), with the pads of R223. -/
def sha1Hmac (data key : Bytes) : Bytes :=
  sha1 ((sha1KeyBlock key).map (· ^^^ 0x5c) ++ sha1 ((sha1KeyBlock key).map (· ^^^ 0x36) ++ data))

end Sys2Proof.Machine
end

