-- ==== Sys2Proof/Safety.lean ====
section
/-! DEFINITION. What claims are stated in: a safe state (60_exceptions.md R254, R258), the invariants of 10_state.md R35,
when two machines are the same to the host (R23, R34, D24), and the host's command sequences (43_streaming_context.md
R160, 44_finalizer.md R185). -/

namespace Sys2Proof

open Sys2Proof.Machine

/-- `FAULT` = 0: no usage error and no overflow since reset (R27, R254). -/
def Safe (s : State) : Prop := s.fault = false

/-- `c` is what a context holds between commands after `INIT` and then feeding the bytes `m` in any chunks: R35 (b) to
(d), with (a) and (e) following from the widths of `COUNT` and from (b). -/
structure Tracks (c : Context) (m : Bytes) : Prop where
  /-- `COUNT` is the number of bytes fed (R25). -/
  count  : c.count.toNat = m.length
  /-- `BUFLEN = COUNT mod 64` (R35 (b)). -/
  buflen : c.buflen.toNat = m.length % 64
  /-- `H` is `IV` with the whole blocks compressed in order (R35 (c)). -/
  h      : c.h = chain m
  /-- `BUF[0..BUFLEN)` is the rest (R35 (d)). -/
  buf    : memRead c 0 c.buflen.toNat = m.drop (64 * (m.length / 64))

/-- R35 for one context, by its phase. In `UNINIT` no register holds a value that is read (R34). -/
def ContextInv (c : Context) : Prop :=
  match c.phase with
  | .uninit => True
  | .initialized => Tracks c []
  | .accum => ∃ m, m ≠ [] ∧ Tracks c m
  | .finalized => c.h = HashState.zero

/-- The invariant of the machine: `1 <= NCTX <= 16` (R9) and R35 for every context. -/
structure MachineInv (s : State) : Prop where
  contexts : 1 ≤ s.nctx ∧ s.nctx ≤ 16
  each     : ∀ c ∈ s.ctxs, ContextInv c

/-- R35 (a) alone, for one context: in an open phase `BUFLEN` is at most 63. -/
def BufferBounded (c : Context) : Prop := c.phase.isOpen = true → c.buflen.toNat ≤ 63

/-- Two contexts that no command can tell apart: the same phase, and in the phases in which anything is read the same
`H`, `COUNT`, `BUFLEN` and `BUF[0..BUFLEN)`. Bytes of `BUF` at index `>= BUFLEN` (R23) and every register in the other
two phases (R34, R180) may differ. -/
def SameContext (c d : Context) : Prop :=
  c.phase = d.phase ∧
  (c.phase.isOpen = true →
    c.h = d.h ∧ c.count = d.count ∧ c.buflen = d.buflen ∧
    memRead c 0 c.buflen.toNat = memRead d 0 d.buflen.toNat)

/-- Two machines the host cannot tell apart: the same number of contexts, each pair alike, the same `FAULT`, and the same
ports. -/
def SameToHost (s t : State) : Prop :=
  List.Forall₂ SameContext s.ctxs t.ctxs ∧ s.fault = t.fault ∧ s.input = t.input ∧ s.responses = t.responses

/-- The host's events for `INIT ctx; FEED ctx, X_1; ...; FEED ctx, X_m; FINAL ctx` (R160, R185). -/
def messageEvents (ctx : BitVec 4) (chunks : List Bytes) : List HostEvent :=
  (Instr.init ctx [] :: chunks.map (fun x => Instr.feed ctx [x]) ++ [Instr.final ctx []]).map
    fun i => HostEvent.command (encode i)

/-- The number of result bytes of an `OK` response (R72, R75). -/
def resultLength : Instr → Nat
  | .init _ _ => 0
  | .feed _ _ => 0
  | .final _ _ => 20
  | .digest _ => 20
  | .combine _ => 20
  | .auth _ => 20

/-- An engine that meets the contracts R220 asks of it, on messages of at most `limit` bytes, with `digest` the function it
computes and `phase` where each of its contexts stands in the state machine of `INIT`, `FEED` and `FINAL` (R163). The record
of R220 has no phase of its own, so it is named here. -/
structure LawfulEngine {C : Type} (E : Engine C) (phase : C → Phase) (digest : Bytes → Bytes) (limit : Nat) : Prop where
  /-- `B` is a positive integer. -/
  blockPositive  : 0 < E.blockSize
  /-- `L` is a positive integer. -/
  digestPositive : 0 < E.digestSize
  /-- `L <= B` (D25, log entry 13). -/
  fits           : E.digestSize ≤ E.blockSize
  /-- A new private context is uninitialised. -/
  fresh          : phase E.fresh = .uninit
  /-- Initialising is legal on any context, whatever its phase. -/
  init           : ∀ c, phase (E.init c) = .initialized
  /-- A successful feed accumulates; an empty one leaves the phase. -/
  feed           : ∀ c data c', E.feed c data = .ok c' → phase c' = (phase c).afterFeed data.length
  /-- Feeding an uninitialised or finalised context is refused. -/
  feedRefused    : ∀ c data, (phase c).isOpen = false → E.feed c data = .error .errUsage
  /-- Finalising an open context succeeds, leaves it finalised and answers exactly `L` bytes. -/
  finalize       : ∀ c, (phase c).isOpen = true →
    ∃ c' d, E.finalize c = .ok (c', d) ∧ phase c' = .finalized ∧ d.length = E.digestSize
  /-- Finalising an uninitialised or finalised context is refused. -/
  finalRefused   : ∀ c, (phase c).isOpen = false → E.finalize c = .error .errUsage
  /-- The streaming law: any context initialised and fed any chunks gives the digest of their concatenation. -/
  stream         : ∀ (c : C) (chunks : List Bytes), chunks.flatten.length ≤ limit →
    ∃ c1 c2, chunks.foldlM E.feed (E.init c) = .ok c1 ∧ E.finalize c1 = .ok (c2, digest chunks.flatten)
  /-- The digest of any message has exactly `L` bytes. -/
  length         : ∀ m, (digest m).length = E.digestSize

end Sys2Proof
end

