-- ==== Sys2Proof/Certificates/Slice0/Obligations.lean ====
section
/-! DEFINITION. The statements for the provers, in the order of the spec's files: state and reset, decoding, the units,
`FEED` and `FINAL`, the derived commands, errors and `FAULT`, isolation, and the whole machine. -/

open Sys2Proof Sys2Proof.Machine

/-! ### State and reset (10_state.md, 70_reset_and_hazards.md) -/

/-- R34, R290: after reset, for every number of contexts, every `PHASE` is `UNINIT` and `FAULT` is 0; `State.reset` is such
a machine. How many contexts it has is the model's choice (log entry 1), and so is that both ports are empty (log entries 5
and 6). -/
def Obligations.ResetStateIsUninitialised : Prop :=
  (∀ n, (State.resetWith n).nctx = n ∧ (∀ c ∈ (State.resetWith n).ctxs, c.phase = .uninit) ∧
    (State.resetWith n).faultPin = false ∧ (State.resetWith n).input = [] ∧ (State.resetWith n).responses = []) ∧
  ∃ n, 1 ≤ n ∧ n ≤ 16 ∧ State.reset = State.resetWith n

/-- R35 holds right after reset, for every `NCTX` of R9. -/
def Obligations.ResetStateMeetsInvariant : Prop :=
  (∀ n, 1 ≤ n → n ≤ 16 → MachineInv (State.resetWith n)) ∧ MachineInv State.reset

/-- R35: every step, whatever the host does, keeps the invariant: in every open context `BUFLEN = COUNT mod 64`, `H` is the
chain of the whole blocks and `BUF` holds the rest of some message of `COUNT` bytes, empty in `INITIALIZED` and not empty in
`ACCUM`; in `FINALIZED`, `H = 0`; and `NCTX` stays in 1..16. Which message it is, `ContextsTrackTheBytesFed` says. -/
def Obligations.EveryStepKeepsInvariant : Prop :=
  ∀ s t : State, MachineInv s → step s = .next t → MachineInv t

/-- R35 (a) on its own: every step keeps `BUFLEN <= 63` in the open phases, and the number of contexts. -/
def Obligations.EveryStepKeepsBufferBound : Prop :=
  ∀ s t : State, (∀ c ∈ s.ctxs, BufferBounded c) → step s = .next t →
    (∀ c ∈ t.ctxs, BufferBounded c) ∧ t.nctx = s.nctx

/-- R290: the reset event puts every context in `UNINIT` and clears `FAULT`; it is no command, so no response belongs to
it. -/
def Obligations.ResetEventClearsFaultAndPhases : Prop :=
  ∀ (s : State) (rest : List HostEvent), s.input = .reset :: rest →
    ∃ t, step s = .next t ∧ t.nctx = s.nctx ∧ (∀ c ∈ t.ctxs, c.phase = .uninit) ∧ t.fault = false ∧
      t.input = rest ∧ t.responses = s.responses

/-- R290: "Reset is the only thing that clears `FAULT` and the only thing that returns a context to `UNINIT`." -/
def Obligations.OnlyResetClearsFaultOrReturnsToUninit : Prop :=
  ∀ s t : State, step s = .next t → s.input.head? ≠ some .reset →
    (s.fault = true → t.fault = true) ∧
    ∀ (n : Nat) (c d : Context), s.ctxs[n]? = some c → t.ctxs[n]? = some d → d.phase = .uninit → c.phase = .uninit

/-! ### Steps and decoding (00_scope.md R8, 30_encoding.md) -/

/-- R77: when the next event is a command whose word decodes to `i`, the step is the execution of `i` in the state in which
that event has been taken off the port. -/
def Obligations.StepRunsDecodedCommand : Prop :=
  ∀ (s : State) (c : Command) (rest : List HostEvent) (i : Instr),
    s.input = .command c :: rest → decode s.nctx c = .ok i → step s = exec i { s with input := rest }

/-- R256, R76: an illegal word ends with `ERR_ILLEGAL` and no result bytes, whatever packets came with it, and changes
nothing, `FAULT` included. -/
def Obligations.StepRefusesIllegalWord : Prop :=
  ∀ (s : State) (c : Command) (rest : List HostEvent) (e : IllegalWord),
    s.input = .command c :: rest → decode s.nctx c = .error e →
    step s = .next { s with input := rest, responses := s.responses ++ [⟨.errIllegal, []⟩] }

/-- R290: with nothing issued the engine waits. That a step with nothing to do is a step is the model's (log entry 5). -/
def Obligations.StepWaitsWithoutCommand : Prop :=
  ∀ s : State, s.input = [] → step s = .next s

/-- The decoder reads back every legal command from its encoding, with every context and any packets. -/
def Obligations.DecodeOfEncodeIsTheCommand : Prop :=
  ∀ (nctx : Nat) (i : Instr), i.legal nctx = true → decode nctx (encode i) = .ok i

/-- Each legal word has one meaning: what decodes is the encoding of what it decodes to. -/
def Obligations.EncodeOfDecodeIsTheWord : Prop :=
  ∀ (nctx : Nat) (c : Command) (i : Instr), decode nctx c = .ok i → encode i = c ∧ i.legal nctx = true

/-- R76, and R77's order: which words are illegal, and by which clause. -/
def Obligations.IllegalWordsAreTheReservedOnes : Prop :=
  ∀ (nctx : Nat) (c : Command),
    (decode nctx c = .error .reservedOp ↔ ((opField c.word).toNat = 0 ∨ 7 ≤ (opField c.word).toNat)) ∧
    (decode nctx c = .error .noSuchContext ↔
      (1 ≤ (opField c.word).toNat ∧ (opField c.word).toNat ≤ 3 ∧ nctx ≤ (ctxField c.word).toNat)) ∧
    (decode nctx c = .error .contextNotZero ↔
      (4 ≤ (opField c.word).toNat ∧ (opField c.word).toNat ≤ 6 ∧ (ctxField c.word).toNat ≠ 0))

/-- A few words written out from the table of R72: `INIT 0`, `FEED 1`, `FINAL 15`, `DIGEST`, `COMBINE`, `AUTH`, and three
reserved ones. -/
def Obligations.TableWordsDecode : Prop :=
  decode 16 ⟨0b00000001, []⟩ = .ok (.init 0 []) ∧
  decode 16 ⟨0b00010010, [[0x61]]⟩ = .ok (.feed 1 [[0x61]]) ∧
  decode 16 ⟨0b11110011, []⟩ = .ok (.final 15 []) ∧
  decode 16 ⟨0b00000100, [[]]⟩ = .ok (.digest [[]]) ∧
  decode 16 ⟨0b00000101, [[1], [2]]⟩ = .ok (.combine [[1], [2]]) ∧
  decode 16 ⟨0b00000110, [[1], [2]]⟩ = .ok (.auth [[1], [2]]) ∧
  decode 16 ⟨0b00000000, []⟩ = .error .reservedOp ∧
  decode 16 ⟨0b00010100, [[]]⟩ = .error .contextNotZero ∧
  decode 2 ⟨0b00100001, []⟩ = .error .noSuchContext

/-! ### The units (40_round_primitives.md to 42_compression_engine.md, 20_memory.md) -/

/-- R100: `ROTL(x, n)` is `((x * 2^n) mod 2^32) + floor(x / 2^(32 - n))`, and bit `j` moves to bit `(j + n) mod 32`. -/
def Obligations.RotateLeftMovesEveryBit : Prop :=
  ∀ (x : Word) (n : Nat), 1 ≤ n → n ≤ 31 →
    (rotl x n).toNat = (x.toNat * 2 ^ n) % 2 ^ 32 + x.toNat / 2 ^ (32 - n) ∧
    ∀ j < 32, (rotl x n).getLsbD ((j + n) % 32) = x.getLsbD j

/-- R101, R102, R103, bit by bit: `CH` chooses, `PARITY` adds modulo 2, `MAJ` is the majority. -/
def Obligations.RoundFunctionsBitByBit : Prop :=
  ∀ (b c d : Word) (j : Nat), j < 32 →
    (ch b c d).getLsbD j = (if b.getLsbD j then c.getLsbD j else d.getLsbD j) ∧
    (parity b c d).getLsbD j = (b.getLsbD j ^^ c.getLsbD j ^^ d.getLsbD j) ∧
    (maj b c d).getLsbD j =
      decide (2 ≤ (b.getLsbD j).toNat + (c.getLsbD j).toNat + (d.getLsbD j).toNat)

/-- R104, R105: which function and which constant each of the eighty rounds uses. -/
def Obligations.StageSelectionIsExact : Prop :=
  ∀ i < 80, (roundFunction (stage i), roundConstant (stage i)) =
    if i < 20 then (ch, 0x5a827999) else if i < 40 then (parity, 0x6ed9eba1)
    else if i < 60 then (maj, 0x8f1bbcdc) else (parity, 0xca62c1d6)

/-- R52: a block gives its first sixteen schedule words big-endian. -/
def Obligations.BlockWordsAreBigEndian : Prop :=
  ∀ (blk : Block) (i : Nat), i ≤ 15 →
    ((expand blk).getD i 0).toNat =
      (blk.toList.getD (4 * i) 0).toNat * 2 ^ 24 + (blk.toList.getD (4 * i + 1) 0).toNat * 2 ^ 16 +
      (blk.toList.getD (4 * i + 2) 0).toNat * 2 ^ 8 + (blk.toList.getD (4 * i + 3) 0).toNat

/-- R121: eighty words, and the recurrence for the slots 16 to 79. -/
def Obligations.ScheduleFollowsRecurrence : Prop :=
  ∀ blk : Block, (expand blk).length = 80 ∧
    ∀ i, 16 ≤ i → i ≤ 79 → (expand blk).getD i 0 =
      rotl ((expand blk).getD (i - 3) 0 ^^^ (expand blk).getD (i - 8) 0 ^^^ (expand blk).getD (i - 14) 0 ^^^
        (expand blk).getD (i - 16) 0) 1

/-- R121: `EXPAND(x XOR y) = EXPAND(x) XOR EXPAND(y)` slot by slot, and zero words expand to zero words. -/
def Obligations.ScheduleIsLinear : Prop :=
  (∀ x y : Block, expand (x.zipWith (· ^^^ ·) y) = (expand x).zipWith (· ^^^ ·) (expand y)) ∧
  expand (Vector.replicate 64 0) = List.replicate 80 0

/-- R130 to R133: `COMPRESS` is eighty rounds from the state, each written simultaneously from the values at its start, and
the result added to the state. -/
def Obligations.CompressionIsEightyRounds : Prop :=
  ∀ (h : HashState) (blk : Block), ∃ v : Nat → Working,
    v 0 = ⟨h.h0, h.h1, h.h2, h.h3, h.h4⟩ ∧
    (∀ i < 80, v (i + 1) =
      ⟨rotl (v i).a 5 + roundFunction (i / 20) (v i).b (v i).c (v i).d + (v i).e + (expand blk).getD i 0 +
        roundConstant (i / 20), (v i).a, rotl (v i).b 30, (v i).c, (v i).d⟩) ∧
    compress h blk = ⟨h.h0 + (v 80).a, h.h1 + (v 80).b, h.h2 + (v 80).c, h.h3 + (v 80).d, h.h4 + (v 80).e⟩

/-- R53: the digest is 20 bytes, and `digest[4k + j] = H[k][31 - 8j : 24 - 8j]`. -/
def Obligations.DigestIsBigEndian : Prop :=
  ∀ h : HashState, (serialise h).length = 20 ∧
    ∀ k < 5, ∀ j < 4, (serialise h)[4 * k + j]? =
      some (([h.h0, h.h1, h.h2, h.h3, h.h4].getD k 0).extractLsb' (24 - 8 * j) 8)

/-- R54: the trailer of the padding is the bit count as eight big-endian bytes, exact up to `COUNT_MAX`, and its two halves
are the words `W[14]` and `W[15]` of a block that ends in it. -/
def Obligations.TrailerIsExactBitCount : Prop :=
  ∀ n ≤ Config.countMax,
    (((padding n).drop (1 + padZeros n)).foldl (fun acc b => 256 * acc + b.toNat) 0) = 8 * n ∧
    ∀ front : Bytes, front.length = 56 →
      ((expand (toBlock (front ++ (padding n).drop (1 + padZeros n)))).getD 14 0).toNat * 2 ^ 32 +
        ((expand (toBlock (front ++ (padding n).drop (1 + padZeros n)))).getD 15 0).toNat = 8 * n

/-! ### `INIT`, `FEED`, `FINAL` (43_streaming_context.md, 44_finalizer.md) -/

/-- R150: `INIT` on an existing context is accepted in every phase, writes `H`, `COUNT`, `BUFLEN` and `PHASE` and nothing
else, and answers `OK` with no bytes. R150 says of `BUF` only that it need not be written, and R23 leaves its bytes at index `>= BUFLEN`
unspecified; that they keep their values is the model's (log entry 9). -/
def Obligations.InitCompletesInEveryPhase : Prop :=
  ∀ (ctx : BitVec 4) (s : State) (c : Context), s.ctxs[ctx.toNat]? = some c →
    exec (.init ctx []) s = .next
      { s with
        ctxs := s.ctxs.set ctx.toNat ⟨Config.iv, c.buf, 0, 0, .initialized⟩
        responses := s.responses ++ [⟨.ok, []⟩] }

/-- R150: `INIT; INIT` leaves the same contexts and `FAULT` as `INIT`; of the bytes of `BUF`, all at index `>= BUFLEN`, that is
the model's (log entry 9). -/
def Obligations.InitIsIdempotent : Prop :=
  ∀ (ctx : BitVec 4) (s t u : State), exec (.init ctx []) s = .next t → exec (.init ctx []) t = .next u →
    u.ctxs = t.ctxs ∧ u.fault = t.fault ∧ t.fault = s.fault

/-- R152, the functional form of `FEED`: `S` is the pending bytes followed by the operand. The premise `BUFLEN <= 63` is R35
(a), which `EveryStepKeepsBufferBound` keeps. -/
def Obligations.FeedFunctionalForm : Prop :=
  ∀ (ctx : BitVec 4) (data : Bytes) (s : State) (c : Context),
    s.ctxs[ctx.toNat]? = some c → c.phase.isOpen = true → c.buflen.toNat ≤ 63 →
    c.count.toNat + data.length ≤ Config.countMax →
    ∃ c' : Context,
      exec (.feed ctx [data]) s = .next
        { s with ctxs := s.ctxs.set ctx.toNat c', responses := s.responses ++ [⟨.ok, []⟩] } ∧
      c'.h = compressBlocks ((memRead c 0 c.buflen.toNat ++ data).length / 64) c.h
        (memRead c 0 c.buflen.toNat ++ data) ∧
      memRead c' 0 ((memRead c 0 c.buflen.toNat ++ data).length % 64) =
        (memRead c 0 c.buflen.toNat ++ data).drop (64 * ((memRead c 0 c.buflen.toNat ++ data).length / 64)) ∧
      c'.buflen.toNat = (memRead c 0 c.buflen.toNat ++ data).length % 64 ∧
      c'.count.toNat = c.count.toNat + data.length

/-- R151: a successful `FEED` of `n` bytes compresses `floor((BUFLEN + n) / 64)` blocks, in order, and leaves `(BUFLEN + n) mod
64` bytes pending; a buffer that is not filled compresses nothing. Whole blocks fed into an empty buffer leave `BUF` alone: its
bytes at index `>= BUFLEN`, which R23 calls unspecified, so that clause is the model's (log entry 9). -/
def Obligations.FeedCountsBlocks : Prop :=
  ∀ (ctx : BitVec 4) (data : Bytes) (s t : State) (c c' : Context),
    s.ctxs[ctx.toNat]? = some c → c.buflen.toNat ≤ 63 →
    exec (.feed ctx [data]) s = .next t → t.responses = s.responses ++ [⟨.ok, []⟩] → t.ctxs[ctx.toNat]? = some c' →
    c'.h = compressBlocks ((c.buflen.toNat + data.length) / 64) c.h (memRead c 0 c.buflen.toNat ++ data) ∧
    c'.buflen.toNat = (c.buflen.toNat + data.length) % 64 ∧
    (c.buflen.toNat + data.length < 64 → c'.h = c.h) ∧
    (c.buflen.toNat = 0 → data.length % 64 = 0 → c'.buf = c.buf)

/-- R151, D15: an empty `FEED` in an open phase is a no-op: no register changes. -/
def Obligations.EmptyFeedChangesNoRegister : Prop :=
  ∀ (ctx : BitVec 4) (s : State) (c : Context), s.ctxs[ctx.toNat]? = some c → c.phase.isOpen = true →
    exec (.feed ctx [[]]) s = .next { s with responses := s.responses ++ [⟨.ok, []⟩] }

/-- The bytes of `BUF` that `FEED` does not store to keep their values: it stores `topUpLength` bytes at `BUFLEN` and the
remainder at 0 (R151). That the other bytes are kept, where R23 calls those at index `>= BUFLEN` unspecified, is the model's
(log entry 9). -/
def Obligations.FeedStoresOnlyItsBytes : Prop :=
  ∀ (ctx : BitVec 4) (data : Bytes) (s t : State) (c c' : Context),
    s.ctxs[ctx.toNat]? = some c → c.buflen.toNat ≤ 63 →
    exec (.feed ctx [data]) s = .next t → t.ctxs[ctx.toNat]? = some c' →
    ∀ (j : Nat) (hj : j < 64),
      ¬ (c.buflen.toNat ≤ j ∧ j < c.buflen.toNat + topUpLength c data.length) →
      ¬ (j < (data.length - topUpLength c data.length) % 64) →
      c'.buf[j] = c.buf[j]

/-- R180, R181, R183: `FINAL` on an open context compresses the pending bytes followed by `PAD(COUNT)`, answers the digest of
the result, and leaves the context wiped in `FINALIZED`. The premise `BUFLEN = COUNT mod 64` is R35 (b), part of the invariant
of `EveryStepKeepsInvariant`. The zeros in `BUF`, `BUFLEN` and `COUNT` after it are those of R180's pseudocode and D14, where
U10 lets an engine leave them unspecified: DESIGN CHOICE (log entry 10). -/
def Obligations.FinalCompletesWithPaddedDigest : Prop :=
  ∀ (ctx : BitVec 4) (s : State) (c : Context),
    s.ctxs[ctx.toNat]? = some c → c.phase.isOpen = true → c.buflen.toNat = c.count.toNat % 64 →
    exec (.final ctx []) s = .next
      { s with
        ctxs := s.ctxs.set ctx.toNat ⟨HashState.zero, Vector.replicate 64 0, 0, 0, .finalized⟩
        responses := s.responses ++ [⟨.ok, serialise (compressBlocks
          ((memRead c 0 c.buflen.toNat ++ padding c.count.toNat).length / 64) c.h
          (memRead c 0 c.buflen.toNat ++ padding c.count.toNat))⟩] }

/-- R182: one extra block with 0 to 55 bytes pending, two with 56 to 63, and what each holds. -/
def Obligations.FinalCompressesOneOrTwoBlocks : Prop :=
  ∀ (ctx : BitVec 4) (s : State) (c : Context),
    s.ctxs[ctx.toNat]? = some c → c.phase.isOpen = true → c.buflen.toNat ≤ 63 →
    ∃ t : State, exec (.final ctx []) s = .next t ∧
      t.responses = s.responses ++ [⟨.ok, serialise (
        if c.buflen.toNat ≤ 55 then
          compress c.h (toBlock (memRead c 0 c.buflen.toNat ++ [0x80] ++ List.replicate (55 - c.buflen.toNat) 0 ++
            be64Bytes (BitVec.ofNat 64 (8 * c.count.toNat))))
        else
          compress
            (compress c.h (toBlock (memRead c 0 c.buflen.toNat ++ [0x80] ++ List.replicate (63 - c.buflen.toNat) 0)))
            (toBlock (List.replicate 56 0 ++ be64Bytes (BitVec.ofNat 64 (8 * c.count.toNat)))))⟩]

/-- R181: the padding makes the length a multiple of 64, with the least number of zero bytes, fewer than 64. -/
def Obligations.PaddingFillsTheLastBlock : Prop :=
  ∀ n : Nat, (padding n).length = 1 + padZeros n + 8 ∧ (n + (padding n).length) % 64 = 0 ∧
    (∀ z, (n + 1 + z) % 64 = 56 → padZeros n ≤ z) ∧
    padZeros 0 = 55 ∧ padZeros 55 = 0 ∧ padZeros 56 = 63 ∧ padZeros 63 = 56 ∧ padZeros 64 = 55

/-- R163: the transitions of `PHASE` for commands that are legal and well-framed, the table row by row, a `FEED` that
overflows, and the derived commands, which touch no context. -/
def Obligations.PhaseTransitionTable : Prop :=
  ∀ (ctx : BitVec 4) (data : Bytes) (s : State) (c : Context), s.ctxs[ctx.toNat]? = some c →
    (∃ t c', exec (.init ctx []) s = .next t ∧ t.ctxs[ctx.toNat]? = some c' ∧ c'.phase = .initialized) ∧
    (∃ t c', exec (.feed ctx [data]) s = .next t ∧ t.ctxs[ctx.toNat]? = some c' ∧
      c'.phase =
        if c.phase = .uninit ∨ c.phase = .finalized then c.phase
        else if Config.countMax < c.count.toNat + data.length then c.phase
        else if data.length = 0 then c.phase else .accum) ∧
    (∃ t c', exec (.final ctx []) s = .next t ∧ t.ctxs[ctx.toNat]? = some c' ∧
      c'.phase = if c.phase = .uninit ∨ c.phase = .finalized then c.phase else .finalized) ∧
    (∀ i : Instr, i.selects = none → ∃ t, exec i s = .next t ∧ t.ctxs = s.ctxs)

/-- R163: `INITIALIZED` and `ACCUM` accept the same commands with the same results: a command on a context in the one phase
and on the same context in the other gives the same response and contexts that differ in `PHASE` at most; of bytes of `BUF` at index
`>= BUFLEN` that is the model's (log entry 9). -/
def Obligations.OpenPhasesBehaveAlike : Prop :=
  ∀ (i : Instr) (s : State) (ctx : BitVec 4) (c : Context), i.selects = some ctx →
    s.ctxs[ctx.toNat]? = some c → c.phase = .initialized →
    ∃ (t t' : State) (r : Response) (d : Context) (p : Phase),
      exec i s = .next t ∧ exec i (s.setContext ctx { c with phase := .accum }) = .next t' ∧
      t.responses = s.responses ++ [r] ∧ t'.responses = s.responses ++ [r] ∧
      t.ctxs[ctx.toNat]? = some d ∧ t'.ctxs[ctx.toNat]? = some { d with phase := p }

/-- R34: "only `INIT` leaves `UNINIT`". -/
def Obligations.OnlyInitLeavesUninit : Prop :=
  ∀ (i : Instr) (s t : State) (n : Nat) (c d : Context), exec i s = .next t →
    s.ctxs[n]? = some c → t.ctxs[n]? = some d → c.phase = .uninit → d.phase ≠ .uninit →
    d.phase = .initialized ∧ ∃ ctx : BitVec 4, i = .init ctx [] ∧ ctx.toNat = n

/-! ### The laws of streaming, and the hash as a whole (R160, R161, R185) -/

/-- R160: for every way of cutting `X` into one or more chunks, `INIT; FEED X_1; ...; FEED X_m` and `INIT; FEED X` leave the
same `H`, `COUNT`, `BUFLEN` and `BUF[0..BUFLEN)`, and `PHASE` is `INITIALIZED` in both when `X` is empty and `ACCUM` in
both when it is not; therefore `FINAL` answers the same digest. -/
def Obligations.StreamingEquivalence : Prop :=
  ∀ (ctx : BitVec 4) (chunks : List Bytes) (s1 s2 : State) (rest1 rest2 : List HostEvent),
    chunks ≠ [] → chunks.flatten.length ≤ Config.countMax →
    ctx.toNat < s1.nctx → ctx.toNat < s2.nctx →
    s1.input = (Instr.init ctx [] :: chunks.map (fun x => Instr.feed ctx [x])).map
      (fun i => HostEvent.command (encode i)) ++ rest1 →
    s2.input = [Instr.init ctx [], Instr.feed ctx [chunks.flatten]].map
      (fun i => HostEvent.command (encode i)) ++ rest2 →
    ∃ (t1 t2 : State) (c1 c2 : Context),
      Host.Core.run core (chunks.length + 1) s1 = .next t1 ∧ Host.Core.run core 2 s2 = .next t2 ∧
      t1.ctxs[ctx.toNat]? = some c1 ∧ t2.ctxs[ctx.toNat]? = some c2 ∧
      c1.phase = (if chunks.flatten = [] then .initialized else .accum) ∧ SameContext c1 c2 ∧
      ∃ (u1 u2 : State) (d : Bytes), exec (.final ctx []) t1 = .next u1 ∧ exec (.final ctx []) t2 = .next u2 ∧
        u1.responses = t1.responses ++ [⟨.ok, d⟩] ∧ u2.responses = t2.responses ++ [⟨.ok, d⟩]

/-- R185: from any state with that context, `INIT; FEED X_1; ...; FEED X_m; FINAL` answers `SHA1` of the concatenation, all
other responses being `OK` with no bytes; `FAULT` and every other context stay as they were. -/
def Obligations.StreamedMessageGivesSha1 : Prop :=
  ∀ (ctx : BitVec 4) (chunks : List Bytes) (s : State) (rest : List HostEvent),
    ctx.toNat < s.nctx → chunks.flatten.length ≤ Config.countMax →
    s.input = messageEvents ctx chunks ++ rest →
    ∃ t : State, Host.Core.run core (chunks.length + 2) s = .next t ∧
      t.responses = s.responses ++ List.replicate (chunks.length + 1) ⟨.ok, []⟩ ++ [⟨.ok, sha1 chunks.flatten⟩] ∧
      t.input = rest ∧ t.fault = s.fault ∧
      ∀ n, n ≠ ctx.toNat → t.ctxs[n]? = s.ctxs[n]?

/-- R161: `INIT; FEED X; FINAL` twice on one context, whatever it held before, gives the same digest both times, the one
`DIGEST X` gives. -/
def Obligations.ReuseGivesTheSameDigest : Prop :=
  ∀ (ctx : BitVec 4) (x : Bytes) (s : State) (rest : List HostEvent),
    ctx.toNat < s.nctx → x.length ≤ Config.countMax →
    s.input = messageEvents ctx [x] ++ messageEvents ctx [x] ++ .command (encode (.digest [x])) :: rest →
    ∃ (t : State) (d : Bytes), Host.Core.run core 7 s = .next t ∧
      t.responses = s.responses ++
        [⟨.ok, []⟩, ⟨.ok, []⟩, ⟨.ok, d⟩, ⟨.ok, []⟩, ⟨.ok, []⟩, ⟨.ok, d⟩, ⟨.ok, d⟩]

/-! ### The derived commands (45_derived_operations.md, 46_hmac_wrapper.md) -/

/-- R200: `DIGEST data` responds `(OK, SHA1(data))`, reads and writes no context, and leaves `FAULT`. -/
def Obligations.DigestIsSha1 : Prop :=
  ∀ (data : Bytes) (s : State), data.length ≤ Config.countMax →
    exec (.digest [data]) s = .next { s with responses := s.responses ++ [⟨.ok, sha1 data⟩] }

/-- R203: `combine(a,b) == digest(a ++ b)` for 20-byte operands, and `ERR_LENGTH` for any other lengths. -/
def Obligations.CombineIsDigestOfConcatenation : Prop :=
  ∀ (a b : Bytes) (s : State),
    if a.length = 20 ∧ b.length = 20 then
      exec (.combine [a, b]) s = exec (.digest [a ++ b]) s ∧
      exec (.combine [a, b]) s = .next { s with responses := s.responses ++ [⟨.ok, sha1 (a ++ b)⟩] }
    else exec (.combine [a, b]) s = .next { s with responses := s.responses ++ [⟨.errLength, []⟩] }

/-- R226: `AUTH(data, key) = SHA1(OPADK ++ SHA1(IPADK ++ data))`, with the key block and the pads of R222 and R223. That a hashed
key is padded with zeros is the spec's decision C5 and D22, PRESUMED (log entry 13). -/
def Obligations.AuthIsOneShotHmac : Prop :=
  ∀ (data key : Bytes) (s : State), key.length ≤ Config.countMax → 64 + data.length ≤ Config.countMax →
    exec (.auth [data, key]) s = .next { s with responses := s.responses ++ [⟨.ok, sha1Hmac data key⟩] }

/-- R220, R226, for any engine that meets the contracts of R220: the wrapper, which keeps two contexts and feeds them piece
by piece, computes the one-shot form. That `L <= B` is asked of the engine (D25) and that a hashed key is padded with zeros (C5,
D22) are the spec's decisions, PRESUMED (log entry 13). -/
def Obligations.GenericHmacIsOneShot : Prop :=
  ∀ (C : Type) (E : Engine C) (phase : C → Phase) (digest : Bytes → Bytes) (limit : Nat) (data key : Bytes),
    LawfulEngine E phase digest limit → key.length ≤ limit → E.blockSize + data.length ≤ limit →
    E.blockSize + E.digestSize ≤ limit →
    ∃ kb : Bytes, keyBlock E key = .ok kb ∧ kb.length = E.blockSize ∧
      kb = (if key.length > E.blockSize then digest key else key) ++
        List.replicate (E.blockSize - (if key.length > E.blockSize then digest key else key).length) 0 ∧
      hmac E data key = .ok (digest (kb.map (· ^^^ 0x5c) ++ digest (kb.map (· ^^^ 0x36) ++ data)))

/-- R220, R221: the SHA-1 instance meets the contracts of R220, with `PHASE` its state machine and `SHA1` its digest, up to
`COUNT_MAX` bytes; positive sizes and `L <= B` (20 and 64; D25, log entry 13) among them. -/
def Obligations.Sha1EngineIsLawful : Prop :=
  LawfulEngine sha1Engine Context.phase sha1 Config.countMax

/-! ### Errors and `FAULT` (60_exceptions.md, 30_encoding.md R75) -/

/-- R75, R70: every command gets exactly one response; with an error it holds no bytes, and with `OK` as many as the command's
result has. -/
def Obligations.EveryCommandGetsOneResponse : Prop :=
  ∀ (i : Instr) (s : State), ∃ (t : State) (r : Response), exec i s = .next t ∧
    t.responses = s.responses ++ [r] ∧ t.input = s.input ∧
    r.bytes.length = if r.status = .ok then resultLength i else 0

/-- R251: which statuses a command can end with. -/
def Obligations.StatusesByCommand : Prop :=
  ∀ (i : Instr) (s t : State) (r : Response), exec i s = .next t → t.responses = s.responses ++ [r] →
    (r.status = .errLength → ∃ ps, i = .combine ps) ∧
    (r.status = .errUsage → (∃ ctx ps, i = .feed ctx ps) ∨ ∃ ctx ps, i = .final ctx ps) ∧
    (r.status = .errOverflow → (∃ ctx ps, i = .feed ctx ps) ∨ (∃ ps, i = .digest ps) ∨ ∃ ps, i = .auth ps) ∧
    (r.status = .errIllegal → i.legal s.nctx = false) ∧
    (r.status = .errInput ↔ i.legal s.nctx = true ∧ i.framed = false)

/-- R250, R251: an error keeps nothing of the command: every context is as it was. -/
def Obligations.ErrorsLeaveContextsUnchanged : Prop :=
  ∀ (i : Instr) (s t : State) (r : Response), exec i s = .next t → t.responses = s.responses ++ [r] →
    r.status ≠ .ok → t.ctxs = s.ctxs ∧ r.bytes = []

/-- R258, R250 (3): `FAULT` after a command is 1 exactly when it was 1 or the command ended with `ERR_USAGE` or
`ERR_OVERFLOW`. -/
def Obligations.FaultIsSetByUsageAndOverflowOnly : Prop :=
  ∀ (i : Instr) (s t : State) (r : Response), exec i s = .next t → t.responses = s.responses ++ [r] →
    (t.fault = true ↔ s.fault = true ∨ r.status = .errUsage ∨ r.status = .errOverflow)

/-- R258: "with `FAULT = 1` every command executes exactly as with `FAULT = 0`". -/
def Obligations.FaultChangesNoBehaviour : Prop :=
  ∀ (i : Instr) (s t : State), exec i s = .next t →
    ∃ t' : State, exec i { s with fault := true } = .next t' ∧ t' = { t with fault := true }

/-- R254: `FEED` and `FINAL` on a context in `UNINIT` or `FINALIZED` are refused with `ERR_USAGE`, set `FAULT`, and leave the
context exactly as it was; an empty `FEED` too (D15). -/
def Obligations.ClosedContextRefusesFeedAndFinal : Prop :=
  ∀ (ctx : BitVec 4) (data : Bytes) (s : State) (c : Context), s.ctxs[ctx.toNat]? = some c →
    c.phase = .uninit ∨ c.phase = .finalized →
    exec (.feed ctx [data]) s = .next { s with fault := true, responses := s.responses ++ [⟨.errUsage, []⟩] } ∧
    exec (.final ctx []) s = .next { s with fault := true, responses := s.responses ++ [⟨.errUsage, []⟩] }

/-- R255: the exact threshold of the counter. A `FEED` is refused whole exactly when `COUNT + n` exceeds `2^61 - 1`; `DIGEST` when
its operand alone does; `AUTH` when its key does or 64 plus its data does. -/
def Obligations.OverflowIsRefusedWhole : Prop :=
  (∀ (ctx : BitVec 4) (data : Bytes) (s : State) (c : Context), s.ctxs[ctx.toNat]? = some c → c.phase.isOpen = true →
    (exec (.feed ctx [data]) s = .next { s with fault := true, responses := s.responses ++ [⟨.errOverflow, []⟩] } ↔
      2 ^ 61 - 1 < c.count.toNat + data.length)) ∧
  (∀ (data : Bytes) (s : State),
    (exec (.digest [data]) s = .next { s with fault := true, responses := s.responses ++ [⟨.errOverflow, []⟩] } ↔
      2 ^ 61 - 1 < data.length)) ∧
  (∀ (data key : Bytes) (s : State),
    (exec (.auth [data, key]) s = .next { s with fault := true, responses := s.responses ++ [⟨.errOverflow, []⟩] } ↔
      2 ^ 61 - 1 < key.length ∨ 2 ^ 61 - 1 < 64 + data.length))

/-- R257: of the errors that apply to a command exactly one is reported, the first in the order illegal, input, length, usage,
overflow. -/
def Obligations.FirstErrorIsReported : Prop :=
  (∀ (ctx : BitVec 4) (ps : List Packet) (s : State), ∃ t r, exec (.init ctx ps) s = .next t ∧
    t.responses = s.responses ++ [r] ∧
    r.status = if s.nctx ≤ ctx.toNat then .errIllegal else if ps.length ≠ 0 then .errInput else .ok) ∧
  (∀ (ctx : BitVec 4) (ps : List Packet) (s : State), ∃ t r, exec (.feed ctx ps) s = .next t ∧
    t.responses = s.responses ++ [r] ∧
    r.status =
      if s.nctx ≤ ctx.toNat then .errIllegal else if ps.length ≠ 1 then .errInput
      else if ∀ c, s.ctxs[ctx.toNat]? = some c → c.phase.isOpen = false then .errUsage
      else if ∀ c, s.ctxs[ctx.toNat]? = some c → Config.countMax < c.count.toNat + ps.flatten.length then .errOverflow
      else .ok) ∧
  (∀ (ctx : BitVec 4) (ps : List Packet) (s : State), ∃ t r, exec (.final ctx ps) s = .next t ∧
    t.responses = s.responses ++ [r] ∧
    r.status =
      if s.nctx ≤ ctx.toNat then .errIllegal else if ps.length ≠ 0 then .errInput
      else if ∀ c, s.ctxs[ctx.toNat]? = some c → c.phase.isOpen = false then .errUsage else .ok) ∧
  (∀ (ps : List Packet) (s : State), ∃ t r, exec (.digest ps) s = .next t ∧ t.responses = s.responses ++ [r] ∧
    r.status =
      if ps.length ≠ 1 then .errInput else if Config.countMax < ps.flatten.length then .errOverflow else .ok) ∧
  (∀ (ps : List Packet) (s : State), ∃ t r, exec (.combine ps) s = .next t ∧ t.responses = s.responses ++ [r] ∧
    r.status =
      if ps.length ≠ 2 then .errInput else if ∃ p ∈ ps, p.length ≠ 20 then .errLength else .ok) ∧
  (∀ (ps : List Packet) (s : State), ∃ t r, exec (.auth ps) s = .next t ∧ t.responses = s.responses ++ [r] ∧
    r.status =
      if ps.length ≠ 2 then .errInput
      else if Config.countMax < (ps.getD 1 []).length ∨ Config.countMax < 64 + (ps.getD 0 []).length then .errOverflow
      else .ok)

/-! ### Isolation (20_memory.md R61, 45_derived_operations.md R202) and what the host can see -/

/-- R61, R202, the frame of every command: a command writes the context it selects and `FAULT`, and nothing else of the machine;
a derived command writes no context at all. The port and the model's own counter stay, and exactly one response is added to
those given before. -/
def Obligations.CommandsWriteOnlyTheirContext : Prop :=
  ∀ (i : Instr) (s t : State), exec i s = .next t →
    t.nctx = s.nctx ∧ t.input = s.input ∧ t.free = s.free ∧ (∃ r, t.responses = s.responses ++ [r]) ∧
    (∀ n : Nat, (∀ ctx, i.selects = some ctx → ctx.toNat ≠ n) → t.ctxs[n]? = s.ctxs[n]?) ∧
    (i.selects = none → t.ctxs = s.ctxs)

/-- R61, R162: a context command's response, its effect on `FAULT` and what it leaves in its context depend on that context
alone; a derived command's response depends on its operands alone. Of what is left in bytes of `BUF` at index `>= BUFLEN` that is
the model's (log entries 9 and 10). -/
def Obligations.CommandsReadOnlyTheirContext : Prop :=
  ∀ (i : Instr) (s1 s2 : State), (∀ ctx, i.selects = some ctx → s1.ctxs[ctx.toNat]? = s2.ctxs[ctx.toNat]?) →
    ∃ (t1 t2 : State) (r : Response), exec i s1 = .next t1 ∧ exec i s2 = .next t2 ∧
      t1.responses = s1.responses ++ [r] ∧ t2.responses = s2.responses ++ [r] ∧
      (∀ ctx, i.selects = some ctx → t1.ctxs[ctx.toNat]? = t2.ctxs[ctx.toNat]?) ∧
      (s1.fault = s2.fault → t1.fault = t2.fault)

/-- R61: two commands that do not share a context may be issued in either order: each gets the same response, and the machine
ends in the same contexts and `FAULT`; of bytes of `BUF` at index `>= BUFLEN` that is the model's (log entry 9). -/
def Obligations.CommandsOnDifferentContextsCommute : Prop :=
  ∀ (i j : Instr) (s : State), (∀ a b, i.selects = some a → j.selects = some b → a ≠ b) →
    ∃ (ti tij tj tji : State) (ri rj : Response),
      exec i s = .next ti ∧ exec j ti = .next tij ∧ exec j s = .next tj ∧ exec i tj = .next tji ∧
      tij.responses = s.responses ++ [ri, rj] ∧ tji.responses = s.responses ++ [rj, ri] ∧
      tij.ctxs = tji.ctxs ∧ tij.fault = tji.fault

/-- R23, R34, R180, D24: no command lets the host see a byte of `BUF` at index `>= BUFLEN`, or any register of a context in
`UNINIT` or `FINALIZED`: two machines that differ only there stay so under every step, with the same responses. So no value the
model chose there (log entries 2, 3, 9, 10) is ever seen. -/
def Obligations.UnspecifiedRegistersAreNeverSeen : Prop :=
  ∀ s t : State, (∀ c ∈ s.ctxs, BufferBounded c) → SameToHost s t →
    ∃ s' t' : State, step s = .next s' ∧ step t = .next t' ∧ SameToHost s' t'

/-- R254, P1 to P7: while the host keeps the phase order and the counter's limit, the engine stays safe: a command whose context
is open (for `FEED` and `FINAL`) and whose operands total at most `COUNT_MAX - 64` beyond what was fed leaves `FAULT` as it
was. -/
def Obligations.SafeHostKeepsFaultClear : Prop :=
  ∀ (i : Instr) (s t : State), Safe s → exec i s = .next t →
    (∀ ctx c, i.selects = some ctx → s.ctxs[ctx.toNat]? = some c →
      ((∃ ps, i = .init ctx ps) ∨ c.phase.isOpen = true) ∧
      c.count.toNat + i.packets.flatten.length ≤ Config.countMax) →
    64 + i.packets.flatten.length ≤ Config.countMax ∨ i.selects ≠ none →
    Safe t

/-- R35 (b) to (d), with the message named: after `INIT` a context holds what it holds for the empty message, and a context
that holds what it holds for `m` holds what it holds for `m ++ data` after `FEED data`. So the message of
`EveryStepKeepsInvariant` is the concatenation of the operands fed since the last `INIT`. -/
def Obligations.ContextsTrackTheBytesFed : Prop :=
  ∀ (ctx : BitVec 4) (s : State) (c : Context), s.ctxs[ctx.toNat]? = some c →
    (∃ t c', exec (.init ctx []) s = .next t ∧ t.ctxs[ctx.toNat]? = some c' ∧ c'.phase = .initialized ∧ Tracks c' []) ∧
    ∀ m data : Bytes, c.phase.isOpen = true → Tracks c m → m.length + data.length ≤ Config.countMax →
      ∃ t c', exec (.feed ctx [data]) s = .next t ∧ t.ctxs[ctx.toNat]? = some c' ∧
        c'.phase = (if data = [] then c.phase else .accum) ∧ Tracks c' (m ++ data)
end

