-- ==== Sys2Proof/Laws/State.lean ====
section
/-! SUPPORT. One lemma per field of State (and of Context) per update, true by unfolding, so that no later proof unfolds
a record update. -/

namespace Sys2Proof.Machine

/-! ### `State.setContext` -/

@[simp] theorem State.setContext_ctxs (s : State) (k : BitVec 4) (c : Context) :
    (s.setContext k c).ctxs = s.ctxs.set k.toNat c := rfl
@[simp] theorem State.setContext_fault (s : State) (k : BitVec 4) (c : Context) :
    (s.setContext k c).fault = s.fault := rfl
@[simp] theorem State.setContext_input (s : State) (k : BitVec 4) (c : Context) :
    (s.setContext k c).input = s.input := rfl
@[simp] theorem State.setContext_responses (s : State) (k : BitVec 4) (c : Context) :
    (s.setContext k c).responses = s.responses := rfl
@[simp] theorem State.setContext_free (s : State) (k : BitVec 4) (c : Context) :
    (s.setContext k c).free = s.free := rfl
@[simp] theorem State.setContext_nctx (s : State) (k : BitVec 4) (c : Context) :
    (s.setContext k c).nctx = s.nctx := by simp [State.nctx]

/-! ### `State.respond` -/

@[simp] theorem State.respond_ctxs (s : State) (e : Status) (b : Bytes) : (s.respond e b).ctxs = s.ctxs := rfl
@[simp] theorem State.respond_fault (s : State) (e : Status) (b : Bytes) : (s.respond e b).fault = s.fault := rfl
@[simp] theorem State.respond_input (s : State) (e : Status) (b : Bytes) : (s.respond e b).input = s.input := rfl
@[simp] theorem State.respond_responses (s : State) (e : Status) (b : Bytes) :
    (s.respond e b).responses = s.responses ++ [⟨e, b⟩] := rfl
@[simp] theorem State.respond_free (s : State) (e : Status) (b : Bytes) : (s.respond e b).free = s.free := rfl
@[simp] theorem State.respond_nctx (s : State) (e : Status) (b : Bytes) : (s.respond e b).nctx = s.nctx := rfl

/-! ### `State.raise` -/

@[simp] theorem State.raise_ctxs (s : State) (e : Status) : (s.raise e).ctxs = s.ctxs := rfl
@[simp] theorem State.raise_fault (s : State) (e : Status) : (s.raise e).fault = (s.fault || e.setsFault) := rfl
@[simp] theorem State.raise_input (s : State) (e : Status) : (s.raise e).input = s.input := rfl
@[simp] theorem State.raise_responses (s : State) (e : Status) :
    (s.raise e).responses = s.responses ++ [⟨e, []⟩] := rfl
@[simp] theorem State.raise_free (s : State) (e : Status) : (s.raise e).free = s.free := rfl
@[simp] theorem State.raise_nctx (s : State) (e : Status) : (s.raise e).nctx = s.nctx := rfl

/-! ### `State.applyReset` -/

@[simp] theorem State.applyReset_ctxs (s : State) :
    s.applyReset.ctxs = (List.range s.nctx).map (unspecifiedContext s.free) := rfl
@[simp] theorem State.applyReset_fault (s : State) : s.applyReset.fault = false := rfl
@[simp] theorem State.applyReset_input (s : State) : s.applyReset.input = s.input := rfl
@[simp] theorem State.applyReset_responses (s : State) : s.applyReset.responses = s.responses := rfl
@[simp] theorem State.applyReset_free (s : State) : s.applyReset.free = s.free + 1 := rfl
@[simp] theorem State.applyReset_nctx (s : State) : s.applyReset.nctx = s.nctx := by simp [State.nctx]

/-- Every context is in `UNINIT` after a reset event. -/
@[simp] theorem unspecifiedContext_phase (draw n : Nat) : (unspecifiedContext draw n).phase = .uninit := rfl

/-! ### `State.issueFirst` -/

@[simp] theorem State.issueFirst_ctxs (s : State) (c : Command) : (s.issueFirst c).ctxs = s.ctxs := rfl
@[simp] theorem State.issueFirst_fault (s : State) (c : Command) : (s.issueFirst c).fault = s.fault := rfl
@[simp] theorem State.issueFirst_input (s : State) (c : Command) :
    (s.issueFirst c).input = .command c :: s.input := rfl
@[simp] theorem State.issueFirst_responses (s : State) (c : Command) :
    (s.issueFirst c).responses = s.responses := rfl
@[simp] theorem State.issueFirst_free (s : State) (c : Command) : (s.issueFirst c).free = s.free := rfl

/-! ### `memWrite` on a context -/

@[simp] theorem memWrite_h (c : Context) (a : Nat) (s : Bytes) : (memWrite c a s).h = c.h := rfl
@[simp] theorem memWrite_buflen (c : Context) (a : Nat) (s : Bytes) : (memWrite c a s).buflen = c.buflen := rfl
@[simp] theorem memWrite_count (c : Context) (a : Nat) (s : Bytes) : (memWrite c a s).count = c.count := rfl
@[simp] theorem memWrite_phase (c : Context) (a : Nat) (s : Bytes) : (memWrite c a s).phase = c.phase := rfl

end Sys2Proof.Machine
end

