-- ==== Sys2Proof/Laws/Ops.lean ====
section
/-! SUPPORT. What each shared operation does, said once: byte strings and `BUF` (00_scope.md R14, R15), the operand forms
(30_encoding.md R73), the end of a command (60_exceptions.md R250), and what a step does with each event. -/

namespace Sys2Proof.Machine

/-! ### Byte strings and blocks -/

@[simp] theorem rep_length (v : Byte) (n : Nat) : (rep v n).length = n := by simp [rep]

@[simp] theorem be32Bytes_length (w : Word) : (be32Bytes w).length = 4 := rfl

@[simp] theorem be64Bytes_length (v : BitVec 64) : (be64Bytes v).length = 8 := rfl

/-- A digest is 20 bytes (R53). -/
@[simp] theorem serialise_length (h : HashState) : (serialise h).length = 20 := rfl

/-- A byte string of 64 bytes is its block (R120). -/
theorem toBlock_toList (s : Bytes) (h : s.length = 64) : (toBlock s).toList = s := by
  simp [toBlock, Vector.toList, h]

/-- A block is the block of its own bytes. -/
theorem toBlock_of_toList (b : Block) : toBlock b.toList = b := by
  apply Vector.toList_inj.mp
  exact toBlock_toList _ (by simp)

/-! ### `MemRead` and `MemWrite` (R15) -/

/-- `BUF` after a write inside its range: the old bytes with the written ones in place. -/
theorem memWrite_buf (c : Context) (a : Nat) (s : Bytes) (h : a + s.length ≤ 64) :
    (memWrite c a s).buf.toList = c.buf.toList.take a ++ s ++ c.buf.toList.drop (a + s.length) := by
  have hl : c.buf.toList.length = 64 := by simp
  exact toBlock_toList _ (by simp; omega)

/-- Reading back what was written after what was there before. -/
theorem memRead_memWrite (c : Context) (a : Nat) (s : Bytes) (h : a + s.length ≤ 64) :
    memRead (memWrite c a s) 0 (a + s.length) = memRead c 0 a ++ s := by
  have hl : c.buf.toList.length = 64 := by simp
  simp only [memRead, List.drop_zero]
  rw [memWrite_buf c a s h, List.take_append_of_le_length (by simp; omega), List.take_of_length_le (by simp)]

/-- A write of the whole prefix, seen from the start. -/
theorem memRead_memWrite_zero (c : Context) (s : Bytes) (h : s.length ≤ 64) :
    memRead (memWrite c 0 s) 0 s.length = s := by
  have := memRead_memWrite c 0 s (by omega)
  simpa [memRead] using this

theorem memRead_length (c : Context) (n : Nat) (h : n ≤ 64) : (memRead c 0 n).length = n := by
  simp [memRead]; omega

/-- A byte outside the written ones keeps its value (the frame of `MemWrite`). -/
theorem memWrite_outside (c : Context) (a : Nat) (s : Bytes) (h : a + s.length ≤ 64) (j : Nat) (hj : j < 64)
    (ho : j < a ∨ a + s.length ≤ j) : (memWrite c a s).buf[j] = c.buf[j] := by
  have hl : c.buf.toList.length = 64 := by simp
  have e := memWrite_buf c a s h
  have e' : (memWrite c a s).buf.toList[j]? = c.buf.toList[j]? := by
    rw [e]
    rcases ho with ho | ho
    · rw [List.append_assoc, List.getElem?_append_left (by simp; omega), List.getElem?_take_of_lt ho]
    · rw [List.getElem?_append_right (by simp; omega), List.getElem?_drop]
      congr 1; simp; omega
  simpa [hj] using e'

/-! ### Selecting a context -/

theorem selectContext_ok (s : State) (k : BitVec 4) (c : Context) (h : s.ctxs[k.toNat]? = some c) :
    s.selectContext k = .ok c := by simp [State.selectContext, h]

theorem selectContext_error (s : State) (k : BitVec 4) (h : s.nctx ≤ k.toNat) :
    s.selectContext k = .error .errIllegal := by
  simp [State.selectContext, State.nctx] at *; simp [h]

/-- Selecting a context can only answer the context, or `ERR_ILLEGAL` where there is none (R76 (b)). -/
theorem selectContext_cases (s : State) (k : BitVec 4) :
    (∃ c, s.ctxs[k.toNat]? = some c ∧ s.selectContext k = .ok c) ∨
    (s.nctx ≤ k.toNat ∧ s.selectContext k = .error .errIllegal) := by
  cases h : s.ctxs[k.toNat]? with
  | some c => exact .inl ⟨c, rfl, selectContext_ok s k c h⟩
  | none => exact .inr ⟨by simpa [State.nctx] using h, by simp [State.selectContext, h]⟩

/-- A context exists exactly below `NCTX`. -/
theorem exists_context (s : State) (k : BitVec 4) (h : k.toNat < s.nctx) : ∃ c, s.ctxs[k.toNat]? = some c :=
  ⟨s.ctxs[k.toNat]'h, List.getElem?_eq_getElem h⟩

/-! ### Operand forms (R73, R252) -/

theorem noOperand_cases (ps : List Packet) :
    (ps = [] ∧ noOperand ps = .ok ()) ∨ (ps.length ≠ 0 ∧ noOperand ps = .error .errInput) := by
  cases ps <;> simp [noOperand]

theorem oneOperand_cases (ps : List Packet) :
    (∃ d, ps = [d] ∧ oneOperand ps = .ok d) ∨ (ps.length ≠ 1 ∧ oneOperand ps = .error .errInput) := by
  match ps with
  | [] => simp [oneOperand]
  | [_] => simp [oneOperand]
  | _ :: _ :: _ => simp [oneOperand]

theorem twoOperands_cases (ps : List Packet) :
    (∃ a b, ps = [a, b] ∧ twoOperands ps = .ok (a, b)) ∨ (ps.length ≠ 2 ∧ twoOperands ps = .error .errInput) := by
  match ps with
  | [] => simp [twoOperands]
  | [_] => simp [twoOperands]
  | [_, _] => simp [twoOperands]
  | _ :: _ :: _ :: _ => simp [twoOperands]

/-! ### The end of a command (R250, R75) -/

theorem complete_ok (s t : State) (b : Bytes) : s.complete (.ok (t, b)) = .next (t.respond .ok b) := rfl

theorem complete_error (s : State) (e : Status) : s.complete (.error e) = .next (s.raise e) := rfl

/-- Everything the end of a command can do: an `OK` response with what the command left, or an error response with
nothing of it kept. -/
theorem complete_cases (s : State) (r : Except Status (State × Bytes)) :
    (∃ t b, r = .ok (t, b) ∧ s.complete r = .next (t.respond .ok b)) ∨
    (∃ e, r = .error e ∧ s.complete r = .next (s.raise e)) := by
  rcases r with e | ⟨t, b⟩
  · exact .inr ⟨e, rfl, rfl⟩
  · exact .inl ⟨t, b, rfl, rfl⟩

/-! ### What a step does with each event -/

theorem step_idle (s : State) (h : s.input = []) : step s = .next s := by
  simp [step, State.takeEvent, h]

theorem step_reset (s : State) (rest : List HostEvent) (h : s.input = .reset :: rest) :
    step s = .next { s with input := rest }.applyReset := by
  simp [step, State.takeEvent, h]

theorem step_command (s : State) (c : Command) (rest : List HostEvent) (i : Instr)
    (h : s.input = .command c :: rest) (hd : decode s.nctx c = .ok i) :
    step s = exec i { s with input := rest } := by
  have : decode ({ s with input := rest } : State).nctx c = .ok i := hd
  simp [step, State.takeEvent, h, this]

theorem step_illegal (s : State) (c : Command) (rest : List HostEvent) (e : IllegalWord)
    (h : s.input = .command c :: rest) (hd : decode s.nctx c = .error e) :
    step s = .next ({ s with input := rest }.raise .errIllegal) := by
  have : decode ({ s with input := rest } : State).nctx c = .error e := hd
  simp [step, State.takeEvent, h, this, State.illegalWord]

/-- Everything a step can do, by the event it takes. -/
theorem step_cases (s : State) :
    (s.input = [] ∧ step s = .next s) ∨
    (∃ rest, s.input = .reset :: rest ∧ step s = .next { s with input := rest }.applyReset) ∨
    (∃ c rest e, s.input = .command c :: rest ∧ decode s.nctx c = .error e ∧
      step s = .next ({ s with input := rest }.raise .errIllegal)) ∨
    (∃ c rest i, s.input = .command c :: rest ∧ decode s.nctx c = .ok i ∧
      step s = exec i { s with input := rest }) := by
  rcases h : s.input with _ | ⟨_ | _, rest⟩
  · exact .inl ⟨rfl, step_idle s h⟩
  · rename_i c
    rcases hd : decode s.nctx c with e | i
    · exact .inr (.inr (.inl ⟨c, rest, e, rfl, hd, step_illegal s c rest e h hd⟩))
    · exact .inr (.inr (.inr ⟨c, rest, i, rfl, hd, step_command s c rest i h hd⟩))
  · exact .inr (.inl ⟨rest, rfl, step_reset s rest h⟩)

end Sys2Proof.Machine
end

