-- ==== Sys2Proof/Laws/Compress.lean ====
section
/-! SUPPORT. Compressing consecutive blocks (42_compression_engine.md R134) and the padding (44_finalizer.md R181). -/

namespace Sys2Proof.Machine

@[simp] theorem compressBlocks_zero (h : HashState) (s : Bytes) : compressBlocks 0 h s = h := rfl

theorem compressBlocks_succ (q : Nat) (h : HashState) (s : Bytes) :
    compressBlocks (q + 1) h s = compressBlocks q (compress h (toBlock (s.take 64))) (s.drop 64) := rfl

/-- Compressing `p + q` blocks of a string whose first part is `p` whole blocks: the first part, then the second. -/
theorem compressBlocks_append (p q : Nat) (h : HashState) (s t : Bytes) (hs : s.length = 64 * p) :
    compressBlocks (p + q) h (s ++ t) = compressBlocks q (compressBlocks p h s) t := by
  induction p generalizing h s with
  | zero =>
    have : s = [] := List.length_eq_zero_iff.mp (by omega)
    simp [this]
  | succ p ih =>
    rw [Nat.succ_add, compressBlocks_succ, compressBlocks_succ,
      List.take_append_of_le_length (by omega), List.drop_append_of_le_length (by omega),
      ih _ _ (by simp; omega)]

/-- Only the blocks that are compressed are read. -/
theorem compressBlocks_prefix (q : Nat) (h : HashState) (s t : Bytes) (hs : 64 * q ≤ s.length) :
    compressBlocks q h (s ++ t) = compressBlocks q h s := by
  induction q generalizing h s with
  | zero => rfl
  | succ q ih =>
    rw [compressBlocks_succ, compressBlocks_succ,
      List.take_append_of_le_length (by omega), List.drop_append_of_le_length (by omega),
      ih _ _ (by simp; omega)]

/-- One whole block. -/
theorem compressBlocks_one (h : HashState) (s : Bytes) (hs : s.length = 64) :
    compressBlocks 1 h s = compress h (toBlock s) := by
  rw [compressBlocks_succ, List.take_of_length_le (by omega), compressBlocks_zero]

/-- All the whole blocks of `s ++ t`, where those of `s` come first and the rest of `s` stands before `t`. -/
theorem compressBlocks_split (h : HashState) (s t : Bytes) :
    compressBlocks ((s ++ t).length / 64) h (s ++ t) =
      compressBlocks ((s.drop (64 * (s.length / 64)) ++ t).length / 64)
        (compressBlocks (s.length / 64) h s) (s.drop (64 * (s.length / 64)) ++ t) := by
  have hlen : (s.take (64 * (s.length / 64))).length = 64 * (s.length / 64) := by
    rw [List.length_take]; omega
  have e1 : s ++ t = s.take (64 * (s.length / 64)) ++ (s.drop (64 * (s.length / 64)) ++ t) := by
    rw [← List.append_assoc, List.take_append_drop]
  have e2 : (s ++ t).length / 64 = s.length / 64 + (s.drop (64 * (s.length / 64)) ++ t).length / 64 := by
    simp only [List.length_append, List.length_drop]; omega
  have e3 : compressBlocks (s.length / 64) h (s.take (64 * (s.length / 64))) = compressBlocks (s.length / 64) h s := by
    have := compressBlocks_prefix (s.length / 64) h (s.take (64 * (s.length / 64))) (s.drop (64 * (s.length / 64)))
      (by omega)
    rw [List.take_append_drop] at this
    exact this.symm
  conv_lhs => rw [e2, e1]
  rw [compressBlocks_append _ _ _ _ _ hlen, e3]

/-- The rest of `s ++ t` after its whole blocks, from the rest of `s` after its own. -/
theorem drop_blocks_split (s t : Bytes) :
    (s ++ t).drop (64 * ((s ++ t).length / 64)) =
      (s.drop (64 * (s.length / 64)) ++ t).drop (64 * ((s.drop (64 * (s.length / 64)) ++ t).length / 64)) := by
  have hlen : (s.take (64 * (s.length / 64))).length = 64 * (s.length / 64) := by
    rw [List.length_take]; omega
  have e1 : s ++ t = s.take (64 * (s.length / 64)) ++ (s.drop (64 * (s.length / 64)) ++ t) := by
    rw [← List.append_assoc, List.take_append_drop]
  have e2 : 64 * ((s ++ t).length / 64) =
      (s.take (64 * (s.length / 64))).length + 64 * ((s.drop (64 * (s.length / 64)) ++ t).length / 64) := by
    rw [hlen]; simp only [List.length_append, List.length_drop]; omega
  conv_lhs => rw [e2, e1]
  rw [← List.drop_drop, List.drop_left]

/-! ### Padding (R181) -/

theorem padZeros_lt (n : Nat) : padZeros n < 64 := by unfold padZeros; omega

/-- Only the length modulo 64 matters to the number of zero bytes. -/
theorem padZeros_mod (n : Nat) : padZeros (n % 64) = padZeros n := by unfold padZeros; omega

theorem padZeros_low (n : Nat) (h : n ≤ 55) : padZeros n = 55 - n := by unfold padZeros; omega

theorem padZeros_high (n : Nat) (h : 56 ≤ n) (h' : n ≤ 63) : padZeros n = 119 - n := by unfold padZeros; omega

theorem padding_length (n : Nat) : (padding n).length = 1 + padZeros n + 8 := by
  simp [padding]; omega

/-- A message with its padding is a whole number of blocks. -/
theorem padded_length (n : Nat) : (n + (padding n).length) % 64 = 0 := by
  rw [padding_length]; unfold padZeros; omega

end Sys2Proof.Machine
end

