-- ==== Sys2Proof/Laws/Stream.lean ====
section
/-! SUPPORT. What `INIT`, `FEED` and `FINAL` do to one context, said once (43_streaming_context.md R150 to R152,
44_finalizer.md R180 to R182): the shared operations that the commands and the derived commands are made of. -/

namespace Sys2Proof.Machine

/-! ### The checks (R254, R255) -/

theorem requireOpen_ok (c : Context) (h : c.phase.isOpen = true) : requireOpen c = .ok () := by
  simp [requireOpen, h]

theorem requireOpen_error (c : Context) (h : c.phase.isOpen = false) : requireOpen c = .error .errUsage := by
  simp [requireOpen, h]

theorem requireRoom_ok (c : Context) (n : Nat) (h : c.count.toNat + n ≤ Config.countMax) : requireRoom c n = .ok () := by
  simp [requireRoom]; omega

theorem requireRoom_error (c : Context) (n : Nat) (h : Config.countMax < c.count.toNat + n) :
    requireRoom c n = .error .errOverflow := by
  simp [requireRoom]; omega

/-- `COUNT` never exceeds `COUNT_MAX` (R25, R35 (e)): the register is 61 bits wide. -/
theorem count_le_max (c : Context) : c.count.toNat ≤ Config.countMax := by
  have := c.count.isLt
  simp only [Config.countMax]; omega

/-! ### `INIT` (R150) -/

@[simp] theorem initContext_h (c : Context) : (initContext c).h = Config.iv := rfl
@[simp] theorem initContext_buf (c : Context) : (initContext c).buf = c.buf := rfl
@[simp] theorem initContext_buflen (c : Context) : (initContext c).buflen = 0 := rfl
@[simp] theorem initContext_count (c : Context) : (initContext c).count = 0 := rfl
@[simp] theorem initContext_phase (c : Context) : (initContext c).phase = .initialized := rfl

/-! ### Appending to `BUF`, and flushing it (R151) -/

@[simp] theorem appendBuffer_h (c : Context) (s : Bytes) : (appendBuffer c s).h = c.h := rfl
@[simp] theorem appendBuffer_count (c : Context) (s : Bytes) : (appendBuffer c s).count = c.count := rfl
@[simp] theorem appendBuffer_phase (c : Context) (s : Bytes) : (appendBuffer c s).phase = c.phase := rfl
@[simp] theorem appendBuffer_buf (c : Context) (s : Bytes) :
    (appendBuffer c s).buf = (memWrite c c.buflen.toNat s).buf := rfl

theorem appendBuffer_buflen (c : Context) (s : Bytes) (h : c.buflen.toNat + s.length ≤ 64) :
    (appendBuffer c s).buflen.toNat = c.buflen.toNat + s.length := by
  simp [appendBuffer, BitVec.toNat_add]; omega

/-- The valid content after an append: what was there, then the new bytes. -/
theorem appendBuffer_read (c : Context) (s : Bytes) (h : c.buflen.toNat + s.length ≤ 64) :
    memRead (appendBuffer c s) 0 (c.buflen.toNat + s.length) = memRead c 0 c.buflen.toNat ++ s :=
  memRead_memWrite c c.buflen.toNat s h

/-- A flush changes `H` and `BUFLEN` only, to whatever values (said for any new `H`, so that no check unfolds the compression). -/
theorem flushed_fields (c : Context) (x : HashState) :
    ({ c with h := x, buflen := 0 } : Context).h = x ∧ ({ c with h := x, buflen := 0 } : Context).buf = c.buf ∧
    ({ c with h := x, buflen := 0 } : Context).buflen = 0 ∧ ({ c with h := x, buflen := 0 } : Context).count = c.count ∧
    ({ c with h := x, buflen := 0 } : Context).phase = c.phase := ⟨rfl, rfl, rfl, rfl, rfl⟩

@[simp] theorem flushBuffer_h (c : Context) : (flushBuffer c).h = compress c.h (toBlock (memRead c 0 64)) :=
  (flushed_fields c _).1
@[simp] theorem flushBuffer_buf (c : Context) : (flushBuffer c).buf = c.buf := (flushed_fields c _).2.1
@[simp] theorem flushBuffer_buflen (c : Context) : (flushBuffer c).buflen = 0 := (flushed_fields c _).2.2.1
@[simp] theorem flushBuffer_count (c : Context) : (flushBuffer c).count = c.count := (flushed_fields c _).2.2.2.1
@[simp] theorem flushBuffer_phase (c : Context) : (flushBuffer c).phase = c.phase := (flushed_fields c _).2.2.2.2

/-! ### `FEED` (R151 in the form of R152) -/

/-- What feeding does to a context, given its pending bytes: the functional form of R152. -/
structure Absorbed (c : Context) (pending : Bytes) (c' : Context) : Prop where
  h      : c'.h = compressBlocks (pending.length / 64) c.h pending
  buflen : c'.buflen.toNat = pending.length % 64
  buf    : memRead c' 0 (pending.length % 64) = pending.drop (64 * (pending.length / 64))
  count  : c'.count = c.count

theorem keepRemainder_count (c : Context) (r : Bytes) : (keepRemainder c r).count = c.count := by
  unfold keepRemainder; split <;> simp

theorem keepRemainder_h (c : Context) (r : Bytes) : (keepRemainder c r).h = c.h := by
  unfold keepRemainder; split <;> simp

/-- From an empty buffer: whole blocks straight from the operand, and the remainder kept at `BUF[0..r)`. -/
theorem absorbed_from_empty (c : Context) (rest : Bytes) (hb : c.buflen = 0) :
    Absorbed c rest (keepRemainder (feedBlocks c rest) rest) := by
  have hr : (rest.drop (64 * (rest.length / 64))).length = rest.length % 64 := by
    simp only [List.length_drop]; omega
  have hb0 : (feedBlocks c rest).buflen.toNat = 0 := by simp [feedBlocks, hb]
  refine ⟨by simp [keepRemainder_h, feedBlocks], ?_, ?_, by simp [keepRemainder_count, feedBlocks]⟩
  · unfold keepRemainder
    split
    · rename_i h0; simp [hb0, h0]
    · rw [appendBuffer_buflen _ _ (by omega)]; omega
  · unfold keepRemainder
    split
    · rename_i h0
      rw [h0]
      have : rest.drop (64 * (rest.length / 64)) = [] := List.length_eq_zero_iff.mp (by omega)
      simp [memRead, this]
    · have := appendBuffer_read (feedBlocks c rest) (rest.drop (64 * (rest.length / 64))) (by omega)
      rw [hb0, hr, Nat.zero_add] at this
      rw [this]
      simp [memRead]

/-- The top-up, the whole blocks and the remainder together (R151) are the functional form (R152). -/
theorem absorbed_topUp (c : Context) (data : Bytes) (hb : c.buflen.toNat ≤ 63) :
    Absorbed c (memRead c 0 c.buflen.toNat ++ data)
      (keepRemainder (feedBlocks (topUp c data) (data.drop (topUpLength c data.length)))
        (data.drop (topUpLength c data.length))) := by
  have hp : (memRead c 0 c.buflen.toNat).length = c.buflen.toNat := memRead_length c _ (by omega)
  by_cases h0 : c.buflen.toNat = 0
  · have hb0 : c.buflen = 0 := BitVec.eq_of_toNat_eq (by simpa using h0)
    have := absorbed_from_empty c data hb0
    simpa [topUp, topUpLength, h0, memRead] using this
  by_cases hn : c.buflen.toNat + data.length < 64
  · -- everything is appended
    have hk : topUpLength c data.length = data.length := by simp [topUpLength, h0]; omega
    have hlen := appendBuffer_buflen c data (by omega)
    have hread := appendBuffer_read c data (by omega)
    have ht : topUp c data = appendBuffer c data := by
      simp only [topUp, h0, if_false, hk, List.take_length]
      rw [if_neg (by omega)]
    simp only [hk, List.drop_length, ht]
    have e : keepRemainder (feedBlocks (appendBuffer c data) []) [] = appendBuffer c data := by
      simp only [keepRemainder, feedBlocks, List.length_nil, Nat.zero_mod, Nat.zero_div, if_true, compressBlocks_zero]
    rw [e]
    have hdiv : (memRead c 0 c.buflen.toNat ++ data).length / 64 = 0 := by
      simp only [List.length_append]; omega
    have hmod : (memRead c 0 c.buflen.toNat ++ data).length % 64 = c.buflen.toNat + data.length := by
      simp only [List.length_append]; omega
    refine ⟨by simp only [hdiv]; rfl, by rw [hmod, hlen], ?_, rfl⟩
    rw [hmod, hdiv, hread]; simp
  · -- the buffer fills and is flushed
    have hk : topUpLength c data.length = 64 - c.buflen.toNat := by simp [topUpLength, h0]; omega
    have htk : (data.take (64 - c.buflen.toNat)).length = 64 - c.buflen.toNat := by
      simp only [List.length_take]; omega
    have hlen := appendBuffer_buflen c (data.take (64 - c.buflen.toNat)) (by omega)
    have hread := appendBuffer_read c (data.take (64 - c.buflen.toNat)) (by omega)
    have h64 : c.buflen.toNat + (64 - c.buflen.toNat) = 64 := by omega
    rw [htk, h64] at hlen hread
    have ht : topUp c data = flushBuffer (appendBuffer c (data.take (64 - c.buflen.toNat))) := by
      simp only [topUp, h0, if_false, hk]
      rw [if_pos hlen]
    have hh := appendBuffer_h c (data.take (64 - c.buflen.toNat))
    have hc := appendBuffer_count c (data.take (64 - c.buflen.toNat))
    rw [hk, ht]
    clear ht
    generalize appendBuffer c (data.take (64 - c.buflen.toNat)) = full at *
    have key := absorbed_from_empty (flushBuffer full) (data.drop (64 - c.buflen.toNat)) (flushBuffer_buflen full)
    have hblk : (memRead c 0 c.buflen.toNat ++ data.take (64 - c.buflen.toNat)).length = 64 := by
      simp only [List.length_append]; omega
    have es : memRead c 0 c.buflen.toNat ++ data =
        (memRead c 0 c.buflen.toNat ++ data.take (64 - c.buflen.toNat)) ++ data.drop (64 - c.buflen.toNat) := by
      rw [List.append_assoc, List.take_append_drop]
    have hq : (memRead c 0 c.buflen.toNat ++ data).length / 64 = 1 + (data.drop (64 - c.buflen.toNat)).length / 64 := by
      simp only [List.length_append, List.length_drop]; omega
    have hr : (memRead c 0 c.buflen.toNat ++ data).length % 64 = (data.drop (64 - c.buflen.toNat)).length % 64 := by
      simp only [List.length_append, List.length_drop]; omega
    refine ⟨?_, by rw [hr]; exact key.buflen, ?_, by rw [key.count, flushBuffer_count, hc]⟩
    · rw [key.h, hq, es, compressBlocks_append 1 _ _ _ _ (by omega), compressBlocks_one _ _ hblk, flushBuffer_h, hread,
        hh]
    · have hd : 64 * (1 + (data.drop (64 - c.buflen.toNat)).length / 64) =
          (memRead c 0 c.buflen.toNat ++ data.take (64 - c.buflen.toNat)).length +
            64 * ((data.drop (64 - c.buflen.toNat)).length / 64) := by rw [hblk]; omega
      rw [hr, key.buf, hq, hd, es, ← List.drop_drop, List.drop_left]

/-- `FEED` on an open context with room answers a context, and what that context holds (R152). -/
theorem feedContext_ok (c : Context) (data : Bytes) (ho : c.phase.isOpen = true) (hb : c.buflen.toNat ≤ 63)
    (hr : c.count.toNat + data.length ≤ Config.countMax) :
    ∃ c', feedContext c data = .ok c' ∧
      c'.h = compressBlocks ((memRead c 0 c.buflen.toNat ++ data).length / 64) c.h
        (memRead c 0 c.buflen.toNat ++ data) ∧
      c'.buflen.toNat = (memRead c 0 c.buflen.toNat ++ data).length % 64 ∧
      memRead c' 0 c'.buflen.toNat = (memRead c 0 c.buflen.toNat ++ data).drop
        (64 * ((memRead c 0 c.buflen.toNat ++ data).length / 64)) ∧
      c'.count.toNat = c.count.toNat + data.length ∧
      c'.phase = c.phase.afterFeed data.length := by
  have hp : (memRead c 0 c.buflen.toNat).length = c.buflen.toNat := memRead_length c _ (by omega)
  by_cases hn : data.length = 0
  · have hd : data = [] := List.length_eq_zero_iff.mp hn
    refine ⟨c, by simp only [feedContext, requireOpen_ok c ho, hn, requireRoom_ok c 0 (by omega), bind, Except.bind, pure,
        Except.pure, if_true],
      ?_, ?_, ?_, by omega, by simp [Phase.afterFeed, hn]⟩
    · simp [hd, hp, Nat.div_eq_of_lt (show c.buflen.toNat < 64 by omega)]
    · simp [hd, hp]; omega
    · simp [hd, hp, Nat.div_eq_of_lt (show c.buflen.toNat < 64 by omega)]
  · refine ⟨absorb c data, by simp [feedContext, requireOpen_ok c ho, requireRoom_ok c _ hr, hn, bind, Except.bind, pure, Except.pure],
      ?_⟩
    have key := absorbed_topUp { c with count := c.count + BitVec.ofNat 61 data.length } data hb
    have hmem : memRead { c with count := c.count + BitVec.ofNat 61 data.length } 0 c.buflen.toNat =
        memRead c 0 c.buflen.toNat := rfl
    simp only [hmem] at key
    refine ⟨key.h, key.buflen, ?_, ?_, rfl⟩
    · have hbl : (absorb c data).buflen.toNat = (memRead c 0 c.buflen.toNat ++ data).length % 64 := key.buflen
      rw [hbl]; exact key.buf
    · have hc : (absorb c data).count = c.count + BitVec.ofNat 61 data.length := key.count
      simp only [Config.countMax] at hr
      rw [hc, BitVec.toNat_add, BitVec.toNat_ofNat]; omega

/-- Everything `FEED` on a context can answer: `ERR_USAGE`, `ERR_OVERFLOW`, or a context (R257 (4), (5)). -/
theorem feedContext_cases (c : Context) (data : Bytes) :
    (c.phase.isOpen = false ∧ feedContext c data = .error .errUsage) ∨
    (c.phase.isOpen = true ∧ Config.countMax < c.count.toNat + data.length ∧
      feedContext c data = .error .errOverflow) ∨
    (c.phase.isOpen = true ∧ c.count.toNat + data.length ≤ Config.countMax ∧
      feedContext c data = .ok (if data.length = 0 then c else absorb c data)) := by
  cases ho : c.phase.isOpen
  · exact .inl ⟨rfl, by simp [feedContext, requireOpen_error c ho, bind, Except.bind]⟩
  · by_cases hr : c.count.toNat + data.length ≤ Config.countMax
    · refine .inr (.inr ⟨rfl, hr, ?_⟩)
      simp only [feedContext, requireOpen_ok c ho, requireRoom_ok c _ hr, bind, Except.bind, pure, Except.pure]
      split <;> rfl
    · refine .inr (.inl ⟨rfl, by omega, ?_⟩)
      simp [feedContext, requireOpen_ok c ho, requireRoom_error c data.length (by omega), bind, Except.bind]

/-! ### `FINAL` (R180 to R182) -/

/-- The trailer is the exact bit count (R54): no bit is lost. -/
theorem bitLength_eq (c : Context) : bitLength c = BitVec.ofNat 64 (8 * c.count.toNat) := by
  apply BitVec.eq_of_toNat_eq
  have := c.count.isLt
  simp only [bitLength, BitVec.toNat_mul, BitVec.toNat_setWidth, BitVec.toNat_ofNat,
    show (8 : BitVec 64).toNat = 8 from rfl]
  omega

/-- The last block: up to 56 pending bytes, zeros, the trailer (R180). -/
theorem lastBlock_h (c : Context) (v : BitVec 64) (hb : c.buflen.toNat ≤ 56) :
    (lastBlock c v).h = compress c.h
      (toBlock (memRead c 0 c.buflen.toNat ++ rep 0 (56 - c.buflen.toNat) ++ be64Bytes v)) := by
  simp only [lastBlock, flushBuffer_h, memWrite_h]
  congr 2
  have h1 := memRead_memWrite c c.buflen.toNat (rep 0 (56 - c.buflen.toNat)) (by simp; omega)
  rw [show c.buflen.toNat + (rep 0 (56 - c.buflen.toNat)).length = 56 by simp; omega] at h1
  have h2 := memRead_memWrite (memWrite c c.buflen.toNat (rep 0 (56 - c.buflen.toNat))) 56 (be64Bytes v) (by simp)
  rw [h1] at h2
  exact h2

/-- `H` after the padding part of `FINAL`, with at most 55 bytes pending: one more block (R182). -/
theorem padAndCompress_low (c : Context) (hb : c.buflen.toNat ≤ 55) :
    (padAndCompress c).h = compress c.h (toBlock (memRead c 0 c.buflen.toNat ++ [0x80] ++
      rep 0 (55 - c.buflen.toNat) ++ be64Bytes (bitLength c))) := by
  have hl : (writeMarker c).buflen.toNat = c.buflen.toNat + 1 := appendBuffer_buflen c [0x80] (by simp; omega)
  have hs : spillBlock (writeMarker c) = writeMarker c := by
    unfold spillBlock; rw [if_neg (by omega)]
  have hrd : memRead (writeMarker c) 0 (c.buflen.toNat + 1) = memRead c 0 c.buflen.toNat ++ [0x80] :=
    appendBuffer_read c [0x80] (by simp; omega)
  rw [padAndCompress, hs, lastBlock_h _ _ (by omega), hl, hrd, show 56 - (c.buflen.toNat + 1) = 55 - c.buflen.toNat by omega]
  rfl

/-- `H` after the padding part of `FINAL`, with 56 to 63 bytes pending: two more blocks (R182). -/
theorem padAndCompress_high (c : Context) (hb : 56 ≤ c.buflen.toNat) (hb' : c.buflen.toNat ≤ 63) :
    (padAndCompress c).h = compress
      (compress c.h (toBlock (memRead c 0 c.buflen.toNat ++ [0x80] ++ rep 0 (63 - c.buflen.toNat))))
      (toBlock (rep 0 56 ++ be64Bytes (bitLength c))) := by
  have hl : (writeMarker c).buflen.toNat = c.buflen.toNat + 1 := appendBuffer_buflen c [0x80] (by simp; omega)
  have hrd : memRead (writeMarker c) 0 (c.buflen.toNat + 1) = memRead c 0 c.buflen.toNat ++ [0x80] :=
    appendBuffer_read c [0x80] (by simp; omega)
  have hfill := memRead_memWrite (writeMarker c) (c.buflen.toNat + 1) (rep 0 (63 - c.buflen.toNat)) (by simp; omega)
  rw [hrd, show c.buflen.toNat + 1 + (rep 0 (63 - c.buflen.toNat)).length = 64 by simp; omega] at hfill
  have hs : spillBlock (writeMarker c) =
      flushBuffer (memWrite (writeMarker c) (c.buflen.toNat + 1) (rep 0 (63 - c.buflen.toNat))) := by
    unfold spillBlock
    rw [if_pos (by omega), hl, show 64 - (c.buflen.toNat + 1) = 63 - c.buflen.toNat by omega]
  rw [padAndCompress, hs, lastBlock_h _ _ (by simp)]
  simp only [flushBuffer_h, memWrite_h, hfill, flushBuffer_buflen]
  congr 1

/-- `H` after the padding part of `FINAL`: the blocks of the pending bytes followed by marker, zeros and trailer (R181). -/
theorem padAndCompress_h (c : Context) (hb : c.buflen.toNat = c.count.toNat % 64) :
    (padAndCompress c).h = compressBlocks
      ((memRead c 0 c.buflen.toNat ++ padding c.count.toNat).length / 64) c.h
      (memRead c 0 c.buflen.toNat ++ padding c.count.toNat) := by
  have hp : (memRead c 0 c.buflen.toNat).length = c.buflen.toNat := memRead_length c _ (by omega)
  have hz : padZeros c.count.toNat = padZeros c.buflen.toNat := by rw [hb, padZeros_mod]
  have hv : padding c.count.toNat = [0x80] ++ rep 0 (padZeros c.buflen.toNat) ++ be64Bytes (bitLength c) := by
    rw [padding, hz, bitLength_eq]
  by_cases hlow : c.buflen.toNat ≤ 55
  · rw [padAndCompress_low c hlow, hv, padZeros_low _ hlow]
    have hlen : (memRead c 0 c.buflen.toNat ++ ([0x80] ++ rep 0 (55 - c.buflen.toNat) ++ be64Bytes (bitLength c))).length
        = 64 := by simp [hp]; omega
    rw [hlen, compressBlocks_one _ _ hlen]
    simp [List.append_assoc]
  · rw [padAndCompress_high c (by omega) (by omega), hv, padZeros_high _ (by omega) (by omega)]
    have hlen : (memRead c 0 c.buflen.toNat ++ ([0x80] ++ rep 0 (119 - c.buflen.toNat) ++ be64Bytes (bitLength c))).length
        = 128 := by simp [hp]; omega
    have h1 : (memRead c 0 c.buflen.toNat ++ [0x80] ++ rep 0 (63 - c.buflen.toNat)).length = 64 := by
      simp [hp]; omega
    have h2 : (rep 0 56 ++ be64Bytes (bitLength c)).length = 64 := by simp
    have es : memRead c 0 c.buflen.toNat ++ ([0x80] ++ rep 0 (119 - c.buflen.toNat) ++ be64Bytes (bitLength c)) =
        (memRead c 0 c.buflen.toNat ++ [0x80] ++ rep 0 (63 - c.buflen.toNat)) ++
          (rep 0 56 ++ be64Bytes (bitLength c)) := by
      have : rep 0 (119 - c.buflen.toNat) = rep 0 (63 - c.buflen.toNat) ++ rep 0 56 := by
        rw [rep, rep, rep, ← List.replicate_add]; congr 1; omega
      rw [this]; simp [List.append_assoc]
    rw [hlen, es, compressBlocks_append 1 1 _ _ _ h1, compressBlocks_one _ _ h1, compressBlocks_one _ _ h2]

/-- `FINAL` on an open context: the wiped context and the digest of `H` (R180, R183). -/
theorem finalContext_ok (c : Context) (ho : c.phase.isOpen = true) :
    finalContext c = .ok (wipeContext (padAndCompress c), serialise (padAndCompress c).h) := by
  simp [finalContext, requireOpen_ok c ho, bind, Except.bind, pure, Except.pure]

theorem finalContext_error (c : Context) (ho : c.phase.isOpen = false) : finalContext c = .error .errUsage := by
  simp [finalContext, requireOpen_error c ho, bind, Except.bind]

/-- The wipe leaves the same context whatever was there (R180). -/
theorem wipeContext_eq (c : Context) :
    wipeContext c = ⟨HashState.zero, Vector.replicate 64 0, 0, 0, .finalized⟩ := rfl

end Sys2Proof.Machine
end

