-- ==== Sys2Proof/Laws/Exec.lean ====
section
/-! SUPPORT. What executing a command can do, said once: the operation it applies to its context, or the bytes a derived
command answers, and then the one response. Later proofs split by `exec_cases` and never unfold a meaning again. -/

namespace Sys2Proof.Machine

/-- What a context command does to its context, and its result bytes. -/
def contextOp : Instr → Context → Except Status (Context × Bytes)
  | .init _ ps, c => (noOperand ps).map fun _ => (initContext c, [])
  | .feed _ ps, c => (oneOperand ps).bind fun data => (feedContext c data).map fun c' => (c', [])
  | .final _ ps, c => (noOperand ps).bind fun _ => finalContext c
  | .digest _, c => .ok (c, [])
  | .combine _, c => .ok (c, [])
  | .auth _, c => .ok (c, [])

/-- What a derived command answers. -/
def derivedOp : Instr → Except Status Bytes
  | .init _ _ => .ok []
  | .feed _ _ => .ok []
  | .final _ _ => .ok []
  | .digest ps => (oneOperand ps).bind digestBytes
  | .combine ps => (twoOperands ps).bind fun x => combineBytes x.1 x.2
  | .auth ps => (twoOperands ps).bind fun x => hmac sha1Engine x.1 x.2

/-- A context command on an existing context. -/
theorem exec_context (i : Instr) (s : State) (k : BitVec 4) (c : Context) (hk : i.selects = some k)
    (hc : s.ctxs[k.toNat]? = some c) :
    exec i s = s.complete ((contextOp i c).map fun x => (s.setContext k x.1, x.2)) := by
  have hsel := selectContext_ok s k c hc
  cases i with
  | init ctx ps =>
    obtain rfl : ctx = k := by simpa [Instr.selects] using hk
    simp only [exec, execInit, contextOp, hsel, bind, Except.bind]
    cases noOperand ps <;> rfl
  | feed ctx ps =>
    obtain rfl : ctx = k := by simpa [Instr.selects] using hk
    simp only [exec, execFeed, contextOp, hsel, bind, Except.bind]
    cases oneOperand ps with
    | error e => rfl
    | ok d => simp only; cases feedContext c d <;> rfl
  | final ctx ps =>
    obtain rfl : ctx = k := by simpa [Instr.selects] using hk
    simp only [exec, execFinal, contextOp, hsel, bind, Except.bind]
    cases noOperand ps with
    | error e => rfl
    | ok d => simp only; cases finalContext c <;> rfl
  | digest ps => simp [Instr.selects] at hk
  | combine ps => simp [Instr.selects] at hk
  | auth ps => simp [Instr.selects] at hk

/-- A context command on a context that does not exist (R76 (b)). -/
theorem exec_noContext (i : Instr) (s : State) (k : BitVec 4) (hk : i.selects = some k) (hc : s.nctx ≤ k.toNat) :
    exec i s = .next (s.raise .errIllegal) := by
  have hsel := selectContext_error s k hc
  cases i with
  | init ctx ps =>
    obtain rfl : ctx = k := by simpa [Instr.selects] using hk
    simp only [exec, execInit, hsel, bind, Except.bind]; rfl
  | feed ctx ps =>
    obtain rfl : ctx = k := by simpa [Instr.selects] using hk
    simp only [exec, execFeed, hsel, bind, Except.bind]; rfl
  | final ctx ps =>
    obtain rfl : ctx = k := by simpa [Instr.selects] using hk
    simp only [exec, execFinal, hsel, bind, Except.bind]; rfl
  | digest ps => simp [Instr.selects] at hk
  | combine ps => simp [Instr.selects] at hk
  | auth ps => simp [Instr.selects] at hk

/-- A derived command (R200, R201, R225). -/
theorem exec_derived (i : Instr) (s : State) (hk : i.selects = none) :
    exec i s = s.complete ((derivedOp i).map fun b => (s, b)) := by
  cases i with
  | init ctx ps => simp [Instr.selects] at hk
  | feed ctx ps => simp [Instr.selects] at hk
  | final ctx ps => simp [Instr.selects] at hk
  | digest ps =>
    simp only [exec, execDigest, derivedOp, bind, Except.bind]
    cases oneOperand ps with
    | error e => rfl
    | ok d => simp only; cases digestBytes d <;> rfl
  | combine ps =>
    simp only [exec, execCombine, derivedOp, bind, Except.bind]
    cases twoOperands ps with
    | error e => rfl
    | ok d => simp only; cases combineBytes d.1 d.2 <;> rfl
  | auth ps =>
    simp only [exec, execAuth, derivedOp, bind, Except.bind]
    cases twoOperands ps with
    | error e => rfl
    | ok d => simp only; cases hmac sha1Engine d.1 d.2 <;> rfl

/-- What a command leaves in the contexts and in `FAULT`, and its response: the three things it can change. -/
def effect (i : Instr) (s : State) : List Context × Bool × Response :=
  match i.selects with
  | none =>
    match derivedOp i with
    | .ok b => (s.ctxs, s.fault, ⟨.ok, b⟩)
    | .error e => (s.ctxs, faultAfter s.fault e, ⟨e, []⟩)
  | some k =>
    match s.ctxs[k.toNat]? with
    | none => (s.ctxs, s.fault, ⟨.errIllegal, []⟩)
    | some c =>
      match contextOp i c with
      | .ok (c', b) => (s.ctxs.set k.toNat c', s.fault, ⟨.ok, b⟩)
      | .error e => (s.ctxs, faultAfter s.fault e, ⟨e, []⟩)

/-- Every command ends in the one next state its effect gives. -/
theorem exec_effect (i : Instr) (s : State) : exec i s = .next
    { s with
      ctxs := (effect i s).1
      fault := (effect i s).2.1
      responses := s.responses ++ [(effect i s).2.2] } := by
  unfold effect
  cases hk : i.selects with
  | none => rw [exec_derived i s hk]; cases derivedOp i <;> rfl
  | some k =>
    cases hc : s.ctxs[k.toNat]? with
    | none =>
      rw [exec_noContext i s k hk (by simpa [State.nctx] using hc)]
      simp [hc, State.raise, State.respond, faultAfter, Status.setsFault]
    | some c => rw [exec_context i s k c hk hc]; simp only [hc]; cases contextOp i c <;> rfl

/-- Everything executing a command can do. -/
theorem exec_cases (i : Instr) (s : State) :
    (∃ k c c' b, i.selects = some k ∧ s.ctxs[k.toNat]? = some c ∧ contextOp i c = .ok (c', b) ∧
      exec i s = .next ((s.setContext k c').respond .ok b)) ∨
    (∃ k c e, i.selects = some k ∧ s.ctxs[k.toNat]? = some c ∧ contextOp i c = .error e ∧
      exec i s = .next (s.raise e)) ∨
    (∃ k, i.selects = some k ∧ s.nctx ≤ k.toNat ∧ exec i s = .next (s.raise .errIllegal)) ∨
    (∃ b, i.selects = none ∧ derivedOp i = .ok b ∧ exec i s = .next (s.respond .ok b)) ∨
    (∃ e, i.selects = none ∧ derivedOp i = .error e ∧ exec i s = .next (s.raise e)) := by
  cases hk : i.selects with
  | none =>
    have hx := exec_derived i s hk
    cases hd : derivedOp i with
    | error e => rw [hd] at hx; exact .inr (.inr (.inr (.inr ⟨e, rfl, rfl, hx⟩)))
    | ok b => rw [hd] at hx; exact .inr (.inr (.inr (.inl ⟨b, rfl, rfl, hx⟩)))
  | some k =>
    cases hc : s.ctxs[k.toNat]? with
    | none => exact .inr (.inr (.inl ⟨k, rfl, by simpa [State.nctx] using hc,
        exec_noContext i s k hk (by simpa [State.nctx] using hc)⟩))
    | some c =>
      have hx := exec_context i s k c hk hc
      cases hd : contextOp i c with
      | error e => rw [hd] at hx; exact .inr (.inl ⟨k, c, e, rfl, hc, hd, hx⟩)
      | ok x => rw [hd] at hx; exact .inl ⟨k, c, x.1, x.2, rfl, hc, hd, hx⟩

end Sys2Proof.Machine
end

