-- ==== Sys2Proof/Laws/Tracks.lean ====
section
/-! SUPPORT. A context tracks the message fed to it (10_state.md R35), and the digest of what it tracks (44_finalizer.md
R185): the lemmas the streaming laws rest on. -/

namespace Sys2Proof.Machine

/-- `INIT` starts the empty message (R150). -/
theorem tracks_initContext (c : Context) : Tracks (initContext c) [] :=
  ⟨rfl, rfl, rfl, rfl⟩

theorem tracks_bounded {c : Context} {m : Bytes} (h : Tracks c m) : c.buflen.toNat ≤ 63 := by
  have := h.buflen; omega

/-- `FEED` appends to the message a context tracks (R152). -/
theorem tracks_feedContext (c : Context) (m data : Bytes) (ht : Tracks c m) (ho : c.phase.isOpen = true)
    (hr : m.length + data.length ≤ Config.countMax) :
    ∃ c', feedContext c data = .ok c' ∧ Tracks c' (m ++ data) ∧ c'.phase = c.phase.afterFeed data.length := by
  have hb : c.buflen.toNat ≤ 63 := by have := ht.buflen; omega
  obtain ⟨c', he, hh, hl, hm, hc, hp⟩ := feedContext_ok c data ho hb (by have := ht.count; omega)
  rw [ht.buf] at hh hl hm
  rw [ht.h] at hh
  refine ⟨c', he, ⟨?_, ?_, ?_, ?_⟩, hp⟩
  · rw [hc, ht.count, List.length_append]
  · rw [hl]; simp only [List.length_append, List.length_drop]; omega
  · rw [hh, chain, chain, ← compressBlocks_split]
  · rw [hm, ← drop_blocks_split]

/-- A `FEED` that a `Tracks` context refuses is one in a closed phase or one without room. -/
theorem isOpen_afterFeed (p : Phase) (n : Nat) (h : p.isOpen = true) : (p.afterFeed n).isOpen = true := by
  unfold Phase.afterFeed; split
  · exact h
  · rfl

/-- The digest of a context is `SHA1` of the message it tracks (R185). -/
theorem serialise_padAndCompress (c : Context) (m : Bytes) (ht : Tracks c m) :
    serialise (padAndCompress c).h = sha1 m := by
  rw [padAndCompress_h c (by rw [ht.buflen, ht.count]), ht.buf, ht.count, ht.h, sha1, chain, chain,
    ← compressBlocks_split]

theorem finalContext_tracks (c : Context) (m : Bytes) (ht : Tracks c m) (ho : c.phase.isOpen = true) :
    finalContext c = .ok (wipeContext (padAndCompress c), sha1 m) := by
  rw [finalContext_ok c ho, serialise_padAndCompress c m ht]

/-- `DIGEST` with `respond` left out answers `SHA1` (R200). -/
theorem digestBytes_ok (data : Bytes) (h : data.length ≤ Config.countMax) : digestBytes data = .ok (sha1 data) := by
  obtain ⟨c', he, ht, hp⟩ := tracks_feedContext (initContext privateContext) [] data (tracks_initContext _) rfl
    (by simpa using h)
  rw [List.nil_append] at ht
  have ho : c'.phase.isOpen = true := by rw [hp]; exact isOpen_afterFeed _ _ rfl
  simp only [digestBytes, he, finalContext_tracks c' data ht ho, bind, Except.bind, pure, Except.pure]

/-- A message too long for the counter (R255, D26). -/
theorem digestBytes_error (data : Bytes) (h : Config.countMax < data.length) :
    digestBytes data = .error .errOverflow := by
  have : feedContext (initContext privateContext) data = .error .errOverflow := by
    rcases feedContext_cases (initContext privateContext) data with ⟨h1, _⟩ | ⟨_, _, h3⟩ | ⟨_, h2, _⟩
    · cases h1
    · exact h3
    · simp at h2; omega
  simp only [digestBytes, this, bind, Except.bind]

@[simp] theorem sha1_length (m : Bytes) : (sha1 m).length = 20 := rfl

end Sys2Proof.Machine
end

