-- ==== Sys2Proof/Laws/Derived.lean ====
section
/-! SUPPORT. What the derived operations can answer (45_derived_operations.md R200, R201): one case each, so that no later
proof unfolds them. -/

namespace Sys2Proof.Machine

/-- `FEED` past the limit on an open context is refused (R255). -/
theorem feedContext_tooLong (c : Context) (data : Bytes) (ho : c.phase.isOpen = true)
    (h : Config.countMax < c.count.toNat + data.length) : feedContext c data = .error .errOverflow := by
  rcases feedContext_cases c data with ⟨h1, _⟩ | ⟨_, _, h3⟩ | ⟨_, h2, _⟩
  · simp [ho] at h1
  · exact h3
  · omega

/-- `DIGEST` answers `SHA1`, or overflows on its operand alone (R200, R255). -/
theorem digestBytes_cases (data : Bytes) :
    (data.length ≤ Config.countMax ∧ digestBytes data = .ok (sha1 data)) ∨
    (Config.countMax < data.length ∧ digestBytes data = .error .errOverflow) := by
  rcases Nat.lt_or_ge Config.countMax data.length with h | h
  · exact .inr ⟨h, digestBytes_error data h⟩
  · exact .inl ⟨h, digestBytes_ok data h⟩

/-- `COMBINE` answers `SHA1` of the concatenation, or refuses a length other than 20; it never overflows (R201, R253). -/
theorem combineBytes_cases (left right : Bytes) :
    (left.length = 20 ∧ right.length = 20 ∧ combineBytes left right = .ok (sha1 (left ++ right))) ∨
    ((left.length ≠ 20 ∨ right.length ≠ 20) ∧ combineBytes left right = .error .errLength) := by
  by_cases h : left.length ≠ 20 ∨ right.length ≠ 20
  · exact .inr ⟨h, by simp [combineBytes, requireDigestLengths, Config.digestSize, h, bind, Except.bind]⟩
  · have h1 : left.length = 20 ∧ right.length = 20 := by omega
    have h2 := digestBytes_ok (left ++ right) (by simp [h1.1, h1.2, Config.countMax])
    exact .inl ⟨h1.1, h1.2, by
      simp [combineBytes, requireDigestLengths, Config.digestSize, h1.1, h1.2, h2, bind, Except.bind]⟩

end Sys2Proof.Machine
end

