-- ==== Sys2Proof/Laws/PerInstr.lean ====
section
/-! SUPPORT. Statements made per instruction. `EncodedWord`: the two fields of an instruction's command word (30_encoding.md
R71, R72), and its operands beside it (R78). -/

namespace Sys2Proof.Laws.EncodedWord

open Sys2Proof

/-- The word of `i` holds its operation code in bits 3:0 and its context, or `0000`, in bits 7:4; the packets are its
operands in order. -/
def Statement (i : Instr) : Prop :=
  opField (encode i).word = opcode i ∧ ctxField (encode i).word = i.selects.getD 0 ∧ (encode i).packets = i.packets

/-- Splitting a word that was put together from two fields gives the fields back. -/
theorem split_word (a b : BitVec 4) : opField (a ++ b) = b ∧ ctxField (a ++ b) = a := by
  revert a b; decide

theorem init (ctx : BitVec 4) (packets : List Packet) : Statement (.init ctx packets) :=
  ⟨(split_word _ _).1, (split_word _ _).2, rfl⟩
theorem feed (ctx : BitVec 4) (packets : List Packet) : Statement (.feed ctx packets) :=
  ⟨(split_word _ _).1, (split_word _ _).2, rfl⟩
theorem final (ctx : BitVec 4) (packets : List Packet) : Statement (.final ctx packets) :=
  ⟨(split_word _ _).1, (split_word _ _).2, rfl⟩
theorem digest (packets : List Packet) : Statement (.digest packets) :=
  ⟨(split_word _ _).1, (split_word _ _).2, rfl⟩
theorem combine (packets : List Packet) : Statement (.combine packets) :=
  ⟨(split_word _ _).1, (split_word _ _).2, rfl⟩
theorem auth (packets : List Packet) : Statement (.auth packets) :=
  ⟨(split_word _ _).1, (split_word _ _).2, rfl⟩

end Sys2Proof.Laws.EncodedWord
end

