-- ==== Sys2Proof/Laws/Run.lean ====
section
/-! SUPPORT. Runs of steps of `core`, in terms of `step`: what statements over command sequences (43_streaming_context.md
R160, 44_finalizer.md R185) are unfolded with. -/

namespace Sys2Proof.Machine

/-- No step: the state itself. -/
theorem run_zero (s : State) : Host.Core.run core 0 s = .next s := rfl

/-- One step more, where the first answers a next state. -/
theorem run_succ (n : Nat) (s t : State) (h : step s = .next t) :
    Host.Core.run core (n + 1) s = Host.Core.run core n t := by
  have h' : core.step s = .next t := h
  simp only [Host.Core.run, h']

/-- A run of `n + m` steps is a run of `n` and then one of `m`. -/
theorem run_add (n m : Nat) (s t : State) (h : Host.Core.run core n s = .next t) :
    Host.Core.run core (n + m) s = Host.Core.run core m t := by
  induction n generalizing s with
  | zero =>
    rw [run_zero] at h
    cases h
    rw [Nat.zero_add]
  | succ n ih =>
    rw [Nat.succ_add]
    simp only [Host.Core.run] at h ⊢
    cases hx : core.step s with
    | next u => rw [hx] at h; exact ih u h
    | fault r => rw [hx] at h; cases h
    | refused r => rw [hx] at h; cases h

end Sys2Proof.Machine
end

