-- ==== Sys2Proof/Tests/Slice0.lean ====
section
/-! SUPPORT. The package's own tests: ill-formed terms, words written out from 30_encoding.md R72, one step of each command
against the values of spec/95_test_vectors.md, and a witness for the hypotheses of every statement. -/

namespace Sys2Proof.Tests

open Sys2Proof Sys2Proof.Machine

/-! ### Helpers -/

/-- A machine with one context. -/
def machine (c : Context) : State := { State.resetWith 1 with ctxs := [c] }

/-- A context with `m` pending, as `INIT; FEED m` leaves it for a short `m`. -/
def pendingCtx (m : Bytes) : Context :=
  ⟨Config.iv, toBlock m, BitVec.ofNat 7 m.length, BitVec.ofNat 61 m.length, .accum⟩

/-- `CTX[0]` just initialised. -/
def freshCtx : Context := initContext Context.reset

/-- A context one byte below the limit of the counter (section 8 of the vectors). -/
def nearlyFull : Context := ⟨Config.iv, Vector.replicate 64 0, 62, BitVec.ofNat 61 (2 ^ 61 - 2), .accum⟩

/-- A context at the limit of the counter. -/
def full : Context := ⟨Config.iv, Vector.replicate 64 0, 63, BitVec.ofNat 61 (2 ^ 61 - 1), .accum⟩

def doneCtx : Context := ⟨HashState.zero, Vector.replicate 64 0, 0, 0, .finalized⟩

/-- The last response of a step that answered a next state. -/
def answer : Host.Outcome State Fault Refusal → Option Response
  | .next t => t.responses.getLast?
  | .fault _ => none
  | .refused _ => none

/-- `CTX[n]` after a step that answered a next state. -/
def contextAfter (n : Nat) : Host.Outcome State Fault Refusal → Option Context
  | .next t => t.ctxs[n]?
  | .fault _ => none
  | .refused _ => none

/-- `FAULT` after a step that answered a next state. -/
def faultAfterStep : Host.Outcome State Fault Refusal → Option Bool
  | .next t => some t.fault
  | .fault _ => none
  | .refused _ => none

/-! ### Well-formedness: one ill-formed term for each check -/

theorem test_wellFormed_accepts : (Instr.feed 1 [[0x61]]).wellFormed 2 = true := by decide
theorem test_wellFormed_refuses_missing_context : (Instr.init 2 []).wellFormed 2 = false := by decide
theorem test_wellFormed_refuses_surplus_packet : (Instr.init 0 [[]]).wellFormed 2 = false := by decide
theorem test_wellFormed_refuses_missing_packet : (Instr.combine [[]]).wellFormed 2 = false := by decide

/-! ### Decoding: words written out from R71 and R72 -/

theorem test_decode_init : decode 16 ⟨0b01010001, []⟩ = .ok (.init 5 []) := by decide
theorem test_decode_feed : decode 16 ⟨0b00010010, [[0x61]]⟩ = .ok (.feed 1 [[0x61]]) := by decide
theorem test_decode_final : decode 16 ⟨0b11110011, []⟩ = .ok (.final 15 []) := by decide
theorem test_decode_digest : decode 16 ⟨0b00000100, [[]]⟩ = .ok (.digest [[]]) := by decide
theorem test_decode_combine : decode 16 ⟨0b00000101, [[1], [2]]⟩ = .ok (.combine [[1], [2]]) := by decide
theorem test_decode_auth : decode 16 ⟨0b00000110, [[1], [2]]⟩ = .ok (.auth [[1], [2]]) := by decide
theorem test_encode_feed : encode (.feed 1 [[0x61]]) = ⟨0x12, [[0x61]]⟩ := by decide
/-- P5: the words `00`, `14` and, with two contexts, `21`. -/
theorem test_decode_illegal :
    decode 2 ⟨0x00, []⟩ = .error .reservedOp ∧ decode 2 ⟨0x0f, []⟩ = .error .reservedOp ∧
    decode 2 ⟨0x14, [[0x61, 0x62, 0x63]]⟩ = .error .contextNotZero ∧
    decode 2 ⟨0x21, []⟩ = .error .noSuchContext := by decide
/-- R77: `3 * NCTX + 3` of the 256 words are legal; here for the two ends of the range of `NCTX`. -/
theorem test_legal_word_count :
    ((List.range 256).filter fun w => (decode 16 ⟨BitVec.ofNat 8 w, []⟩).toOption.isSome).length = 3 * 16 + 3 ∧
    ((List.range 256).filter fun w => (decode 1 ⟨BitVec.ofNat 8 w, []⟩).toOption.isSome).length = 3 * 1 + 3 := by
  decide +kernel
theorem test_table_word_runs :
    decodeTableWord 8 5 = some (.combine [List.replicate 20 0, List.replicate 20 0]) ∧
    answer (step (State.reset.withFetchWord 8 1)) = some ⟨.ok, []⟩ := by decide

/-! ### The units (sections 2 and 3 of the vectors) -/

theorem test_rotl : rotl 0x80000001 1 = 0x00000003 ∧ rotl 0xefcdab89 30 = 0x7bf36ae2 ∧ rotl 0x67452301 5 = 0xe8a4602c := by
  decide
theorem test_selectors :
    ch 0xaaaaaaaa 0xcccccccc 0xf0f0f0f0 = 0xd8d8d8d8 ∧ parity 0xaaaaaaaa 0xcccccccc 0xf0f0f0f0 = 0x96969696 ∧
    maj 0xaaaaaaaa 0xcccccccc 0xf0f0f0f0 = 0xe8e8e8e8 := by decide
/-- Section 3.3: the block `00 01 .. 3f`. -/
theorem test_schedule :
    ((expand (toBlock ((List.range 64).map (BitVec.ofNat 8)))).getD 19 0,
      (expand (toBlock ((List.range 64).map (BitVec.ofNat 8)))).getD 79 0) = (0x181a1c1e, 0xc47818a4) := by
  decide +kernel
/-- Section 3.3: the zero state with the zero block. -/
theorem test_compress_zero : compress HashState.zero (Vector.replicate 64 0) =
    ⟨0x9e1547ed, 0x57ec91c2, 0x30fa8bc8, 0xc7785a54, 0xa7efa5e3⟩ := by decide +kernel
/-- Section 3.3: 64 bytes `ff` from `IV`. -/
theorem test_compress_ones : compress Config.iv (Vector.replicate 64 0xff) =
    ⟨0xbafbc2c8, 0x7c333226, 0x03f38e06, 0xc3e0f79c, 0x1f1b1475⟩ := by decide +kernel

/-! ### One step of each command (sections 4 to 9 of the vectors) -/

/-- P1, first command. -/
theorem test_init : contextAfter 0 (exec (.init 0 []) (machine doneCtx)) =
    some ⟨⟨0x67452301, 0xefcdab89, 0x98badcfe, 0x10325476, 0xc3d2e1f0⟩, Vector.replicate 64 0, 0, 0, .initialized⟩ := by
  decide
/-- Section 8: `INIT` with one packet. -/
theorem test_init_surplus : answer (exec (.init 0 [[]]) (machine doneCtx)) = some ⟨.errInput, []⟩ := by decide

/-- Section 5: 60 bytes pending, ten more: four top up the buffer, six remain. -/
theorem test_feed_flush :
    (contextAfter 0 (exec (.feed 0 [(List.range 10).map fun j => BitVec.ofNat 8 (60 + j)])
      (machine (pendingCtx ((List.range 60).map (BitVec.ofNat 8)))))).map
        (fun c => (c.h, c.count, c.buflen, memRead c 0 6)) =
    some (⟨0xb9ac757b, 0xbc297925, 0x2e227274, 0x06872f94, 0xcbea56a1⟩, 70, 6, [0x40, 0x41, 0x42, 0x43, 0x44, 0x45]) := by
  decide +kernel
/-- Section 8: `COUNT` = `2^61 - 2`, one byte accepted; at `2^61 - 1`, one byte refused, the context unchanged. -/
theorem test_feed_limit :
    answer (exec (.feed 0 [[0x61]]) (machine nearlyFull)) = some ⟨.ok, []⟩ ∧
    answer (exec (.feed 0 [[0x61]]) (machine full)) = some ⟨.errOverflow, []⟩ ∧
    contextAfter 0 (exec (.feed 0 [[0x61]]) (machine full)) = some full ∧
    faultAfterStep (exec (.feed 0 [[0x61]]) (machine full)) = some true := by decide +kernel

/-- P1: `"abc"` pending. -/
theorem test_final_abc : answer (exec (.final 0 []) (machine (pendingCtx [0x61, 0x62, 0x63]))) =
    some ⟨.ok, [0xa9, 0x99, 0x3e, 0x36, 0x47, 0x06, 0x81, 0x6a, 0xba, 0x3e, 0x25, 0x71, 0x78, 0x50, 0xc2, 0x6c, 0x9c, 0xd0,
      0xd8, 0x9d]⟩ := by decide +kernel
/-- Section 4: 56 bytes `61` pending, two extra blocks. -/
theorem test_final_two_blocks : answer (exec (.final 0 []) (machine (pendingCtx (List.replicate 56 0x61)))) =
    some ⟨.ok, [0xc2, 0xdb, 0x33, 0x0f, 0x60, 0x83, 0x85, 0x4c, 0x99, 0xd4, 0xb5, 0xbf, 0xb6, 0xe8, 0xf2, 0x9f, 0x20, 0x1b,
      0xe6, 0x99]⟩ := by decide +kernel
/-- Section 8: `FINAL` on a finalized context. -/
theorem test_final_twice : answer (exec (.final 0 []) (machine doneCtx)) = some ⟨.errUsage, []⟩ ∧
    contextAfter 0 (exec (.final 0 []) (machine doneCtx)) = some doneCtx ∧
    faultAfterStep (exec (.final 0 []) (machine doneCtx)) = some true := by decide

/-- T1: the empty message. -/
theorem test_digest_empty : answer (exec (.digest [[]]) State.reset) =
    some ⟨.ok, [0xda, 0x39, 0xa3, 0xee, 0x5e, 0x6b, 0x4b, 0x0d, 0x32, 0x55, 0xbf, 0xef, 0x95, 0x60, 0x18, 0x90, 0xaf, 0xd8,
      0x07, 0x09]⟩ := by decide +kernel
/-- Section 4: 119 bytes `61`. -/
theorem test_digest_119 : answer (exec (.digest [List.replicate 119 0x61]) State.reset) =
    some ⟨.ok, [0xee, 0x97, 0x10, 0x65, 0xaa, 0xa0, 0x17, 0xe0, 0x63, 0x2a, 0x8c, 0xa6, 0xc7, 0x7b, 0xb3, 0xbf, 0x8b, 0x1d,
      0xfc, 0x56]⟩ := by decide +kernel

/-- Section 6: `COMBINE z, z` for 20 zero bytes. -/
theorem test_combine_zero : answer (exec (.combine [List.replicate 20 0, List.replicate 20 0]) State.reset) =
    some ⟨.ok, [0xb8, 0x0d, 0xe5, 0xd1, 0x38, 0x75, 0x85, 0x41, 0xc5, 0xf0, 0x52, 0x65, 0xad, 0x14, 0x4a, 0xb9, 0xfa, 0x86,
      0xd1, 0xdb]⟩ := by decide +kernel
/-- Section 6: 20 and 21 bytes. -/
theorem test_combine_length : answer (exec (.combine [List.replicate 20 0, List.replicate 21 0]) State.reset) =
    some ⟨.errLength, []⟩ := by decide

/-- Section 7: `"Hi There"` with the key `20*0b`. -/
theorem test_auth_short_key :
    answer (exec (.auth [[0x48, 0x69, 0x20, 0x54, 0x68, 0x65, 0x72, 0x65], List.replicate 20 0x0b]) State.reset) =
    some ⟨.ok, [0xb6, 0x17, 0x31, 0x86, 0x55, 0x05, 0x72, 0x64, 0xe2, 0x8b, 0xc0, 0xb6, 0xfb, 0x37, 0x8c, 0x8e, 0xf1, 0x46,
      0xbe, 0x00]⟩ := by decide +kernel
/-- Section 7: `"abc"` with the key `65*01`, which is hashed. -/
theorem test_auth_long_key :
    answer (exec (.auth [[0x61, 0x62, 0x63], List.replicate 65 0x01]) State.reset) =
    some ⟨.ok, [0x1f, 0x97, 0xcf, 0x31, 0x85, 0x0b, 0xd6, 0x79, 0x88, 0x4b, 0x65, 0x2b, 0x2b, 0xcd, 0x27, 0x32, 0x4e, 0x4e,
      0x9c, 0xbd]⟩ := by decide +kernel

/-- R290: reset clears `FAULT` and returns the context to `UNINIT`. -/
theorem test_reset_event :
    (contextAfter 0 (step { machine full with fault := true, input := [.reset] })).map Context.phase = some .uninit ∧
    faultAfterStep (step { machine full with fault := true, input := [.reset] }) = some false := by decide

/-- R251: the codes. -/
theorem test_status_codes :
    [Status.ok, .errInput, .errLength, .errUsage, .errOverflow, .errIllegal].map Status.code = [0, 1, 2, 3, 4, 5] := by
  decide

/-- R78, P1 and section 7: lines and their encodings. -/
theorem test_assemble :
    assemble "FEED 0, \"abc\"" = some ⟨0x02, [[0x61, 0x62, 0x63]]⟩ ∧ assemble "FINAL 15" = some ⟨0xf3, []⟩ ∧
    assemble "AUTH \"Hi There\", 2*0b" = some ⟨0x06, [[0x48, 0x69, 0x20, 0x54, 0x68, 0x65, 0x72, 0x65], [0x0b, 0x0b]]⟩ ∧
    assemble "COMBINE -, 61ff" = some ⟨0x05, [[], [0x61, 0xff]]⟩ ∧ assemble "INIT 16" = none := by decide +kernel

/-- Lines outside the six forms (log entry 16), and blanks where R78's forms have them or inside quotes. -/
theorem test_assemble_refuses :
    assemble "INIT 1 5" = none ∧ assemble "INIT 0," = none ∧ assemble "DIGEST 56 * 61" = none ∧ assemble "INIT" = none ∧
    assemble "INIT    5" = some ⟨0x51, []⟩ ∧ assemble "DIGEST \"a, b\"" = some ⟨0x04, [[0x61, 0x2c, 0x20, 0x62]]⟩ := by
  decide +kernel

/-! ### Witnesses: concrete states and operands that meet the hypotheses of each statement -/

/-- A machine with one context and one command issued. -/
def issued (c : Context) (i : Instr) : State := { machine c with input := [.command (encode i)] }

/-- Every command ends in a next state. -/
theorem exec_next (i : Instr) (s : State) : ∃ t, exec i s = .next t := ⟨_, exec_effect i s⟩

/-- A step with a legal command issued ends in a next state. -/
theorem step_next (c : Context) (i : Instr) (h : decode 1 (encode i) = .ok i) : ∃ t, step (issued c i) = .next t :=
  ⟨_, (step_command (issued c i) (encode i) [] i rfl h).trans (exec_effect i _)⟩

/-- One byte pending: `"a"`. -/
def oneByte : Context := pendingCtx [0x61]

/-- 63 bytes pending, the most between commands. -/
def lastSlot : Context := pendingCtx (List.replicate 63 0x61)

theorem tracks_fresh : Tracks freshCtx [] := ⟨rfl, rfl, rfl, rfl⟩
theorem tracks_oneByte : Tracks oneByte [0x61] := ⟨by decide, by decide, by decide, by decide⟩
theorem tracks_lastSlot : Tracks lastSlot (List.replicate 63 0x61) := ⟨by decide, by decide, by decide, by decide +kernel⟩

theorem inv_oneByte (i : Instr) : MachineInv (issued oneByte i) :=
  ⟨⟨Nat.le_refl 1, by simp [issued, machine, State.nctx]⟩, fun c hc => by
    obtain rfl : c = oneByte := List.mem_singleton.mp hc
    exact ⟨[0x61], by decide, tracks_oneByte⟩⟩

theorem witness_ResetStateMeetsInvariant : (1 ≤ 1 ∧ 1 ≤ 16) ∧ (1 ≤ 16 ∧ 16 ≤ 16) := by decide
theorem witness_EveryStepKeepsInvariant :
    MachineInv (issued oneByte (.feed 0 [[0x62]])) ∧ (∃ t, step (issued oneByte (.feed 0 [[0x62]])) = .next t) ∧
    MachineInv (issued oneByte (.final 0 [])) ∧ (∃ t, step (issued oneByte (.final 0 [])) = .next t) :=
  ⟨inv_oneByte _, step_next _ _ (by decide), inv_oneByte _, step_next _ _ (by decide)⟩
theorem witness_EveryStepKeepsBufferBound :
    (∀ c ∈ (issued lastSlot (.feed 0 [[0x62]])).ctxs, BufferBounded c) ∧
    ∃ t, step (issued lastSlot (.feed 0 [[0x62]])) = .next t :=
  ⟨fun c hc => by obtain rfl : c = lastSlot := List.mem_singleton.mp hc; exact fun _ => by decide, step_next _ _ (by decide)⟩
theorem witness_ResetEventClearsFaultAndPhases :
    ({ machine full with fault := true, input := [.reset] } : State).input = .reset :: [] := rfl
theorem witness_OnlyResetClearsFaultOrReturnsToUninit :
    (∃ t, step { issued doneCtx (.final 0 []) with fault := true } = .next t) ∧
    ({ issued doneCtx (.final 0 []) with fault := true } : State).input.head? ≠ some .reset ∧
    (issued Context.reset (.digest [[]])).ctxs[0]? = some Context.reset := ⟨⟨_, rfl⟩, by decide, rfl⟩
theorem witness_StepRunsDecodedCommand :
    (issued oneByte (.feed 0 [[0x62]])).input = .command ⟨0x02, [[0x62]]⟩ :: [] ∧
    decode (issued oneByte (.feed 0 [[0x62]])).nctx ⟨0x02, [[0x62]]⟩ = .ok (.feed 0 [[0x62]]) := by decide
theorem witness_StepRefusesIllegalWord :
    ({ machine oneByte with input := [.command ⟨0x00, [[0x61]]⟩] } : State).input = .command ⟨0x00, [[0x61]]⟩ :: [] ∧
    decode (machine oneByte).nctx ⟨0x00, [[0x61]]⟩ = .error .reservedOp ∧
    decode (machine oneByte).nctx ⟨0x11, []⟩ = .error .noSuchContext ∧
    decode (machine oneByte).nctx ⟨0x16, []⟩ = .error .contextNotZero := by decide
theorem witness_StepWaitsWithoutCommand : State.reset.input = [] ∧ (machine full).input = [] := by decide
theorem witness_DecodeOfEncodeIsTheCommand :
    (Instr.init 15 []).legal 16 = true ∧ (Instr.feed 0 [[0x61]]).legal 1 = true ∧ (Instr.final 1 []).legal 2 = true ∧
    (Instr.auth [[0x61], []]).legal 1 = true := by decide
theorem witness_EncodeOfDecodeIsTheWord : decode 16 ⟨0xf1, []⟩ = .ok (.init 15 []) := by decide
/-- Each clause of the statement, at the ends of its range. -/
theorem witness_IllegalWordsAreTheReservedOnes :
    (opField 0x00).toNat = 0 ∧ 7 ≤ (opField 0x07).toNat ∧ 7 ≤ (opField 0x0f).toNat ∧
    (1 ≤ (opField 0x11).toNat ∧ (opField 0x13).toNat ≤ 3 ∧ 1 ≤ (ctxField 0x11).toNat) ∧
    (4 ≤ (opField 0x14).toNat ∧ (opField 0x16).toNat ≤ 6 ∧ (ctxField 0x14).toNat ≠ 0) := by decide
theorem witness_RotateLeftMovesEveryBit : (1 ≤ 1 ∧ 1 ≤ 31) ∧ (1 ≤ 31 ∧ 31 ≤ 31) ∧ 0 < 32 ∧ 31 < 32 := by decide
theorem witness_RoundFunctionsBitByBit : 0 < 32 ∧ 31 < 32 := by decide
theorem witness_StageSelectionIsExact : 0 < 20 ∧ 19 < 20 ∧ 39 < 40 ∧ 59 < 60 ∧ 79 < 80 := by decide
theorem witness_BlockWordsAreBigEndian : 0 ≤ 15 ∧ 15 ≤ 15 := by decide
theorem witness_ScheduleFollowsRecurrence : (16 ≤ 16 ∧ 16 ≤ 79) ∧ 16 ≤ 79 ∧ 79 ≤ 79 := by decide
theorem witness_CompressionIsEightyRounds : 0 < 80 ∧ 79 < 80 := by decide
theorem witness_DigestIsBigEndian : 0 < 5 ∧ 4 < 5 ∧ 0 < 4 ∧ 3 < 4 := by decide
theorem witness_TrailerIsExactBitCount : 0 ≤ Config.countMax ∧ Config.countMax ≤ Config.countMax ∧
    (List.replicate 56 (0x80 : Byte)).length = 56 := by decide

theorem witness_InitCompletesInEveryPhase :
    (machine Context.reset).ctxs[(0 : BitVec 4).toNat]? = some Context.reset ∧
    (machine doneCtx).ctxs[(0 : BitVec 4).toNat]? = some doneCtx ∧
    State.reset.ctxs[(15 : BitVec 4).toNat]? = some Context.reset := by decide
theorem witness_InitIsIdempotent :
    ∃ t u, exec (.init 0 []) (machine oneByte) = .next t ∧ exec (.init 0 []) t = .next u := ⟨_, _, rfl, rfl⟩
theorem witness_FeedFunctionalForm :
    ((machine lastSlot).ctxs[(0 : BitVec 4).toNat]? = some lastSlot ∧ lastSlot.phase.isOpen = true ∧
      lastSlot.buflen.toNat ≤ 63 ∧ lastSlot.count.toNat + [(0x61 : Byte)].length ≤ Config.countMax) ∧
    ((machine nearlyFull).ctxs[(0 : BitVec 4).toNat]? = some nearlyFull ∧ nearlyFull.phase.isOpen = true ∧
      nearlyFull.buflen.toNat ≤ 63 ∧ nearlyFull.count.toNat + [(0x61 : Byte)].length ≤ Config.countMax) := by decide
/-- `FEED` of 64 bytes to an empty buffer, and of one byte to 62 pending ones. -/
theorem witness_FeedCountsBlocks :
    (freshCtx.buflen.toNat = 0 ∧ (List.replicate 64 (0 : Byte)).length % 64 = 0 ∧
      ∃ t c', exec (.feed 0 [List.replicate 64 0]) (machine freshCtx) = .next t ∧
        t.responses = (machine freshCtx).responses ++ [⟨.ok, []⟩] ∧ t.ctxs[(0 : BitVec 4).toNat]? = some c') ∧
    (nearlyFull.buflen.toNat + [(0x61 : Byte)].length < 64 ∧ nearlyFull.buflen.toNat ≤ 63 ∧
      ∃ t c', exec (.feed 0 [[0x61]]) (machine nearlyFull) = .next t ∧
        t.responses = (machine nearlyFull).responses ++ [⟨.ok, []⟩] ∧ t.ctxs[(0 : BitVec 4).toNat]? = some c') :=
  ⟨⟨by decide, by decide, _, _, exec_effect _ _, rfl, rfl⟩, by decide, by decide, _, _, exec_effect _ _, rfl, rfl⟩
theorem witness_EmptyFeedChangesNoRegister :
    (machine oneByte).ctxs[(0 : BitVec 4).toNat]? = some oneByte ∧ oneByte.phase.isOpen = true := by decide
theorem witness_FeedStoresOnlyItsBytes :
    lastSlot.buflen.toNat ≤ 63 ∧
    (∃ t c', exec (.feed 0 [[0x61, 0x62]]) (machine lastSlot) = .next t ∧ t.ctxs[(0 : BitVec 4).toNat]? = some c') ∧
    ¬ (lastSlot.buflen.toNat ≤ 1 ∧ 1 < lastSlot.buflen.toNat + topUpLength lastSlot 2) ∧
    ¬ (1 < (2 - topUpLength lastSlot 2) % 64) :=
  ⟨by decide, ⟨_, _, exec_effect _ _, rfl⟩, by decide, by decide⟩
theorem witness_FinalCompletesWithPaddedDigest :
    (machine oneByte).ctxs[(0 : BitVec 4).toNat]? = some oneByte ∧ oneByte.phase.isOpen = true ∧
    oneByte.buflen.toNat = oneByte.count.toNat % 64 ∧ freshCtx.phase.isOpen = true ∧
    freshCtx.buflen.toNat = freshCtx.count.toNat % 64 ∧ full.buflen.toNat = full.count.toNat % 64 := by decide
/-- Both sides of the choice, at 55, 56 and 63 bytes pending. -/
theorem witness_FinalCompressesOneOrTwoBlocks :
    (pendingCtx (List.replicate 55 0x61)).buflen.toNat = 55 ∧ (pendingCtx (List.replicate 56 0x61)).buflen.toNat = 56 ∧
    lastSlot.buflen.toNat = 63 ∧ lastSlot.phase.isOpen = true ∧
    (machine lastSlot).ctxs[(0 : BitVec 4).toNat]? = some lastSlot := by decide
theorem witness_PaddingFillsTheLastBlock : (0 + 1 + 55) % 64 = 56 ∧ (63 + 1 + 56) % 64 = 56 := by decide
/-- A closed context, an open one, an overflowing operand and a derived command. -/
theorem witness_PhaseTransitionTable :
    (machine doneCtx).ctxs[(0 : BitVec 4).toNat]? = some doneCtx ∧ (machine full).ctxs[(0 : BitVec 4).toNat]? = some full ∧
    Config.countMax < full.count.toNat + [(0x61 : Byte)].length ∧ (Instr.digest [[]]).selects = none := by decide
theorem witness_OpenPhasesBehaveAlike :
    (Instr.feed 0 [[0x61]]).selects = some 0 ∧ (machine freshCtx).ctxs[(0 : BitVec 4).toNat]? = some freshCtx ∧
    freshCtx.phase = .initialized := by decide
theorem witness_OnlyInitLeavesUninit :
    ∃ t d, exec (.init 0 []) (machine Context.reset) = .next t ∧ (machine Context.reset).ctxs[0]? = some Context.reset ∧
      t.ctxs[0]? = some d ∧ Context.reset.phase = .uninit ∧ d.phase ≠ .uninit :=
  ⟨_, _, rfl, rfl, rfl, rfl, by decide⟩

/-- `"ab"` in the chunks `"a"`, empty, `"b"`. -/
def twoChunks : List Bytes := [[0x61], [], [0x62]]

theorem witness_StreamingEquivalence :
    twoChunks ≠ [] ∧ twoChunks.flatten.length ≤ Config.countMax ∧ (0 : BitVec 4).toNat < (machine doneCtx).nctx ∧
    ({ machine doneCtx with
        input := [.command ⟨0x01, []⟩, .command ⟨0x02, [[0x61]]⟩, .command ⟨0x02, [[]]⟩, .command ⟨0x02, [[0x62]]⟩] } :
        State).input =
      (Instr.init 0 [] :: twoChunks.map (fun x => Instr.feed 0 [x])).map (fun i => HostEvent.command (encode i)) ++ [] ∧
    ({ machine doneCtx with input := [.command ⟨0x01, []⟩, .command ⟨0x02, [[0x61, 0x62]]⟩] } : State).input =
      [Instr.init 0 [], Instr.feed 0 [twoChunks.flatten]].map (fun i => HostEvent.command (encode i)) ++ [] := by decide
theorem witness_StreamedMessageGivesSha1 :
    (0 : BitVec 4).toNat < (machine doneCtx).nctx ∧ twoChunks.flatten.length ≤ Config.countMax ∧
    ({ machine doneCtx with
        input := [.command ⟨0x01, []⟩, .command ⟨0x02, [[0x61]]⟩, .command ⟨0x02, [[]]⟩, .command ⟨0x02, [[0x62]]⟩,
          .command ⟨0x03, []⟩] } : State).input = messageEvents 0 twoChunks ++ [] := by decide
theorem witness_ReuseGivesTheSameDigest :
    (0 : BitVec 4).toNat < (machine oneByte).nctx ∧ [(0x61 : Byte)].length ≤ Config.countMax ∧
    ({ machine oneByte with
        input := [.command ⟨0x01, []⟩, .command ⟨0x02, [[0x61]]⟩, .command ⟨0x03, []⟩, .command ⟨0x01, []⟩,
          .command ⟨0x02, [[0x61]]⟩, .command ⟨0x03, []⟩, .command ⟨0x04, [[0x61]]⟩] } : State).input =
      messageEvents 0 [[0x61]] ++ messageEvents 0 [[0x61]] ++ .command (encode (.digest [[0x61]])) :: [] := by decide
theorem witness_DigestIsSha1 : ([] : Bytes).length ≤ Config.countMax ∧
    (List.replicate (2 ^ 61 - 1) (0 : Byte)).length ≤ Config.countMax := ⟨by decide, by rw [List.length_replicate]; decide⟩
/-- Both sides of the choice: 20 and 20 bytes, and 20 and 21. -/
theorem witness_CombineIsDigestOfConcatenation :
    ((List.replicate 20 (0 : Byte)).length = 20 ∧ (List.replicate 20 (0 : Byte)).length = 20) ∧
    ¬ ((List.replicate 20 (0 : Byte)).length = 20 ∧ (List.replicate 21 (0 : Byte)).length = 20) := by decide
theorem witness_AuthIsOneShotHmac : (List.replicate 65 (1 : Byte)).length ≤ Config.countMax ∧
    64 + [(0x61 : Byte)].length ≤ Config.countMax ∧
    64 + (List.replicate (2 ^ 61 - 65) (0 : Byte)).length ≤ Config.countMax := by
  refine ⟨by decide, by decide, ?_⟩
  rw [List.length_replicate]; decide

/-- An engine of two bytes a block and one byte a digest: its phase and the byte string it was fed, whose length modulo 256
is the digest. -/
def toyEngine : Engine (Phase × Bytes) where
  blockSize := 2
  digestSize := 1
  fresh := (.uninit, [])
  init _ := (.initialized, [])
  feed c data := if c.1.isOpen then .ok (c.1.afterFeed data.length, c.2 ++ data) else .error .errUsage
  finalize c := if c.1.isOpen then .ok ((.finalized, []), [BitVec.ofNat 8 c.2.length]) else .error .errUsage

theorem toy_feeds (chunks : List Bytes) (c : Phase × Bytes) (ho : c.1.isOpen = true) :
    ∃ p : Phase, p.isOpen = true ∧ chunks.foldlM toyEngine.feed c = .ok (p, c.2 ++ chunks.flatten) := by
  induction chunks generalizing c with
  | nil => exact ⟨c.1, ho, by simp; rfl⟩
  | cons x xs ih =>
    have hx : toyEngine.feed c x = .ok (c.1.afterFeed x.length, c.2 ++ x) := if_pos ho
    obtain ⟨p, hp, he⟩ := ih (c.1.afterFeed x.length, c.2 ++ x) (isOpen_afterFeed _ _ ho)
    exact ⟨p, hp, by simp [List.foldlM_cons, hx, bind, Except.bind, he]⟩

theorem toy_lawful : LawfulEngine toyEngine Prod.fst (fun m => [BitVec.ofNat 8 m.length]) 100 where
  blockPositive := by decide
  digestPositive := by decide
  fits := by decide
  fresh := rfl
  init _ := rfl
  feed c data c' h := by
    simp only [toyEngine] at h
    split at h <;> cases h
    rfl
  feedRefused c data h := by simp [toyEngine, h]
  finalize c h := ⟨(.finalized, []), [BitVec.ofNat 8 c.2.length], if_pos h, rfl, rfl⟩
  finalRefused c h := by simp [toyEngine, h]
  stream c chunks _ := by
    obtain ⟨p, hp, he⟩ := toy_feeds chunks (.initialized, []) rfl
    exact ⟨_, _, he, if_pos hp⟩
  length _ := rfl

/-- A key that is hashed (three bytes) and one that is not. -/
theorem witness_GenericHmacIsOneShot :
    LawfulEngine toyEngine Prod.fst (fun m => [BitVec.ofNat 8 m.length]) 100 ∧ toyEngine.blockSize + 1 ≤ 100 ∧
    toyEngine.blockSize + toyEngine.digestSize ≤ 100 ∧ [(1 : Byte), 2, 3].length > toyEngine.blockSize ∧
    ¬ [(1 : Byte), 2].length > toyEngine.blockSize :=
  ⟨toy_lawful, by decide, by decide, by decide, by decide⟩
/-- The premises of its clauses: an open context, the two closed phases, and chunks up to the limit. -/
theorem witness_Sha1EngineIsLawful :
    freshCtx.phase.isOpen = true ∧ doneCtx.phase.isOpen = false ∧ Context.reset.phase.isOpen = false ∧
    (∃ c', sha1Engine.feed freshCtx [] = .ok c') ∧
    twoChunks.flatten.length ≤ Config.countMax ∧ (List.replicate (2 ^ 61 - 1) (0 : Byte)).length ≤ Config.countMax :=
  ⟨by decide, by decide, by decide, ⟨_, rfl⟩, by decide, by rw [List.length_replicate]; decide⟩

/-- A command that ends with each status. -/
theorem witness_StatusesByCommand :
    (∃ t, exec (.combine [[], []]) (machine full) = .next t ∧ t.responses = (machine full).responses ++ [⟨.errLength, []⟩]) ∧
    (∃ t, exec (.final 0 []) (machine doneCtx) = .next t ∧ t.responses = (machine doneCtx).responses ++ [⟨.errUsage, []⟩]) ∧
    (∃ t, exec (.feed 0 [[0x61]]) (machine full) = .next t ∧ t.responses = (machine full).responses ++ [⟨.errOverflow, []⟩]) ∧
    (∃ t, exec (.init 1 []) (machine full) = .next t ∧ t.responses = (machine full).responses ++ [⟨.errIllegal, []⟩]) ∧
    (∃ t, exec (.init 0 [[]]) (machine full) = .next t ∧ t.responses = (machine full).responses ++ [⟨.errInput, []⟩]) ∧
    ∃ t, exec (.init 0 []) (machine full) = .next t ∧ t.responses = (machine full).responses ++ [⟨.ok, []⟩] :=
  ⟨⟨_, rfl, rfl⟩, ⟨_, rfl, rfl⟩, ⟨_, rfl, rfl⟩, ⟨_, rfl, rfl⟩, ⟨_, rfl, rfl⟩, _, rfl, rfl⟩
theorem witness_ErrorsLeaveContextsUnchanged :
    ∃ t, exec (.feed 0 [[0x61]]) (machine full) = .next t ∧
      t.responses = (machine full).responses ++ [⟨.errOverflow, []⟩] ∧ Status.errOverflow ≠ .ok :=
  ⟨_, rfl, rfl, by decide⟩
theorem witness_FaultIsSetByUsageAndOverflowOnly :
    (∃ t, exec (.final 0 []) (machine doneCtx) = .next t ∧ t.responses = (machine doneCtx).responses ++ [⟨.errUsage, []⟩] ∧
      t.fault = true) ∧
    ∃ t, exec (.init 0 [[]]) (machine doneCtx) = .next t ∧ t.responses = (machine doneCtx).responses ++ [⟨.errInput, []⟩] ∧
      t.fault = false :=
  ⟨⟨_, rfl, rfl, rfl⟩, _, rfl, rfl, rfl⟩
theorem witness_FaultChangesNoBehaviour : ∃ t, exec (.feed 0 [[0x61]]) (machine oneByte) = .next t := exec_next _ _
theorem witness_ClosedContextRefusesFeedAndFinal :
    (machine doneCtx).ctxs[(0 : BitVec 4).toNat]? = some doneCtx ∧ doneCtx.phase = .finalized ∧
    (machine Context.reset).ctxs[(0 : BitVec 4).toNat]? = some Context.reset ∧ Context.reset.phase = .uninit := by decide
/-- At the threshold and one beyond it, for each of the three commands. -/
theorem witness_OverflowIsRefusedWhole :
    (machine full).ctxs[(0 : BitVec 4).toNat]? = some full ∧ full.phase.isOpen = true ∧
    2 ^ 61 - 1 < full.count.toNat + [(0x61 : Byte)].length ∧ ¬ 2 ^ 61 - 1 < full.count.toNat + ([] : Bytes).length ∧
    2 ^ 61 - 1 < (List.replicate (2 ^ 61) (0 : Byte)).length ∧
    2 ^ 61 - 1 < 64 + (List.replicate (2 ^ 61 - 64) (0 : Byte)).length := by
  refine ⟨by decide, by decide, by decide, by decide, ?_, ?_⟩ <;> rw [List.length_replicate] <;> decide
/-- The clauses: a missing context, a wrong number of packets, a closed context, an overflow, a wrong length. -/
theorem witness_FirstErrorIsReported :
    answer (exec (.feed 1 []) (machine doneCtx)) = some ⟨.errIllegal, []⟩ ∧
    answer (exec (.feed 0 []) (machine doneCtx)) = some ⟨.errInput, []⟩ ∧
    answer (exec (.combine [[]]) (machine doneCtx)) = some ⟨.errInput, []⟩ ∧
    answer (exec (.combine [[], []]) (machine doneCtx)) = some ⟨.errLength, []⟩ ∧
    answer (exec (.feed 0 [[0x61]]) (machine doneCtx)) = some ⟨.errUsage, []⟩ ∧
    answer (exec (.feed 0 [[0x61]]) (machine full)) = some ⟨.errOverflow, []⟩ := by decide

/-- Two contexts, the second with one byte pending. -/
def pair : State := { State.resetWith 2 with ctxs := [doneCtx, oneByte] }

theorem witness_CommandsWriteOnlyTheirContext :
    (∃ t, exec (.init 0 []) pair = .next t) ∧ (∀ ctx, (Instr.init 0 []).selects = some ctx → ctx.toNat ≠ 1) ∧
    (Instr.digest [[]]).selects = none :=
  ⟨⟨_, rfl⟩, fun ctx h => by simp [Instr.selects] at h; subst h; decide, rfl⟩
/-- Two machines alike in `CTX[1]` only. -/
theorem witness_CommandsReadOnlyTheirContext :
    ∀ ctx, (Instr.final 1 []).selects = some ctx →
      pair.ctxs[ctx.toNat]? = ({ pair with ctxs := [full, oneByte], fault := true } : State).ctxs[ctx.toNat]? := by
  intro ctx h; simp [Instr.selects] at h; subst h; decide
theorem witness_CommandsOnDifferentContextsCommute :
    ∀ a b, (Instr.feed 0 [[0x61]]).selects = some a → (Instr.final 1 []).selects = some b → a ≠ b := by
  intro a b ha hb; simp [Instr.selects] at ha hb; subst ha hb; decide

/-- One byte pending, with other bytes behind it. -/
def oneByteNoise : Context := { oneByte with buf := toBlock (0x61 :: List.replicate 63 0xff) }

theorem same_oneByte : SameContext oneByte oneByteNoise := ⟨rfl, fun _ => ⟨rfl, rfl, rfl, by decide⟩⟩
/-- Two machines that differ in a byte of `BUF` behind `BUFLEN` and in the registers of a context in `FINALIZED`. -/
theorem witness_UnspecifiedRegistersAreNeverSeen :
    (∀ c ∈ ({ issued oneByte (.final 0 []) with ctxs := [oneByte, doneCtx] } : State).ctxs, BufferBounded c) ∧
    SameToHost { issued oneByte (.final 0 []) with ctxs := [oneByte, doneCtx] }
      { issued oneByte (.final 0 []) with ctxs := [oneByteNoise, { doneCtx with h := Config.iv, buflen := 127 }] } ∧
    oneByte ≠ oneByteNoise := by
  refine ⟨fun c hc => ?_, ⟨.cons same_oneByte (.cons ⟨rfl, fun h => by cases h⟩ .nil), rfl, rfl, rfl⟩, by decide⟩
  simp at hc
  rcases hc with rfl | rfl
  · exact fun _ => by decide
  · exact fun h => by cases h
theorem witness_SafeHostKeepsFaultClear :
    Safe (machine oneByte) ∧ (∃ t, exec (.feed 0 [[0x62]]) (machine oneByte) = .next t) ∧
    (∀ ctx c, (Instr.feed 0 [[0x62]]).selects = some ctx → (machine oneByte).ctxs[ctx.toNat]? = some c →
      ((∃ ps, Instr.feed 0 [[0x62]] = .init ctx ps) ∨ c.phase.isOpen = true) ∧
      c.count.toNat + (Instr.feed 0 [[0x62]]).packets.flatten.length ≤ Config.countMax) ∧
    (Instr.feed 0 [[0x62]]).selects ≠ none ∧ 64 + (Instr.digest [[0x62]]).packets.flatten.length ≤ Config.countMax := by
  refine ⟨rfl, exec_next _ _, fun ctx c h hc => ?_, by decide, by decide⟩
  simp [Instr.selects] at h
  subst h
  obtain rfl : oneByte = c := by simpa [machine] using hc
  exact ⟨.inr (by decide), by decide⟩

/-- Both ends: an empty operand in `INITIALIZED`, and 63 bytes pending with one more to come. -/
theorem witness_ContextsTrackTheBytesFed :
    ((machine freshCtx).ctxs[(0 : BitVec 4).toNat]? = some freshCtx ∧ freshCtx.phase.isOpen = true ∧ Tracks freshCtx [] ∧
      ([] : Bytes).length + ([] : Bytes).length ≤ Config.countMax) ∧
    ((machine lastSlot).ctxs[(0 : BitVec 4).toNat]? = some lastSlot ∧ lastSlot.phase.isOpen = true ∧
      Tracks lastSlot (List.replicate 63 0x61) ∧
      (List.replicate 63 (0x61 : Byte)).length + [(0x61 : Byte)].length ≤ Config.countMax) :=
  ⟨⟨by decide, by decide, tracks_fresh, by decide⟩, by decide, by decide, tracks_lastSlot, by decide⟩

end Sys2Proof.Tests
end

/-! SUPPORT. The proofs of the statements on state and reset (10_state.md): what a command can do to each context, the
invariants of R35, and what the host can see. -/

namespace Sys2Proof.Machine

/-! ### What a command and a step can do to one context -/

/-- Everything a context command that succeeds can do to its context, and its result bytes. -/
theorem contextOp_ok_cases {i : Instr} {c c' : Context} {b : Bytes} (h : contextOp i c = .ok (c', b)) :
    (∃ k, i = .init k [] ∧ c' = initContext c ∧ b = []) ∨
    (∃ k data, i = .feed k [data] ∧ feedContext c data = .ok c' ∧ b = []) ∨
    (∃ k, i = .final k [] ∧ c.phase.isOpen = true ∧ c' = wipeContext (padAndCompress c) ∧
      b = serialise (padAndCompress c).h) ∨
    (i.selects = none ∧ c' = c ∧ b = []) := by
  cases i with
  | init k ps =>
    obtain ⟨rfl, hp⟩ | ⟨-, hp⟩ := noOperand_cases ps <;> rw [contextOp, hp] at h <;> cases h
    exact .inl ⟨k, rfl, rfl, rfl⟩
  | feed k ps =>
    obtain ⟨data, rfl, hp⟩ | ⟨-, hp⟩ := oneOperand_cases ps
    · simp only [contextOp, hp, Except.bind] at h
      cases hf : feedContext c data with
      | error e => rw [hf] at h; cases h
      | ok x => rw [hf] at h; cases h; exact .inr (.inl ⟨k, data, rfl, hf, rfl⟩)
    · rw [contextOp, hp] at h; cases h
  | final k ps =>
    obtain ⟨rfl, hp⟩ | ⟨-, hp⟩ := noOperand_cases ps
    · simp only [contextOp, hp, Except.bind] at h
      cases ho : c.phase.isOpen with
      | false => rw [finalContext_error c ho] at h; cases h
      | true =>
        rw [finalContext_ok c ho] at h
        injection h with h
        injection h with h₁ h₂
        exact .inr (.inr (.inl ⟨k, rfl, rfl, h₁.symm, h₂.symm⟩))
    · rw [contextOp, hp] at h; cases h
  | digest ps => cases h; exact .inr (.inr (.inr ⟨rfl, rfl, rfl⟩))
  | combine ps => cases h; exact .inr (.inr (.inr ⟨rfl, rfl, rfl⟩))
  | auth ps => cases h; exact .inr (.inr (.inr ⟨rfl, rfl, rfl⟩))

/-- `FEED` succeeds on an open context with room only (R254, R255). -/
theorem feedContext_ok_checks {c c' : Context} {data : Bytes} (h : feedContext c data = .ok c') :
    c.phase.isOpen = true ∧ c.count.toNat + data.length ≤ Config.countMax := by
  obtain ⟨-, he⟩ | ⟨-, -, he⟩ | ⟨ho, hr, -⟩ := feedContext_cases c data
  · rw [he] at h; cases h
  · rw [he] at h; cases h
  · exact ⟨ho, hr⟩

/-- `FEED` on a closed context is refused (R254). -/
theorem feedContext_closed (c : Context) (data : Bytes) (hc : c.phase.isOpen = false) :
    feedContext c data = .error .errUsage := by
  obtain ⟨-, he⟩ | ⟨ho, -⟩ | ⟨ho, -⟩ := feedContext_cases c data
  · exact he
  · simp [hc] at ho
  · simp [hc] at ho

/-- An empty `FEED` that is accepted changes nothing (R151, D15). -/
theorem feedContext_empty {c c' : Context} (h : feedContext c [] = .ok c') : c' = c := by
  obtain ⟨-, he⟩ | ⟨-, -, he⟩ | ⟨-, -, he⟩ := feedContext_cases c [] <;> rw [he] at h <;> cases h
  rfl

/-- No command changes the number of contexts. -/
theorem exec_nctx {i : Instr} {s t : State} (h : exec i s = .next t) : t.nctx = s.nctx := by
  obtain ⟨k, c, c', b, -, -, -, hx⟩ | ⟨k, c, e, -, -, -, hx⟩ | ⟨k, -, -, hx⟩ | ⟨b, -, -, hx⟩ | ⟨e, -, -, hx⟩ :=
    exec_cases i s <;> rw [hx] at h <;> cases h <;> simp

/-- A command leaves `CTX[n]` as it was, or selects it and leaves there what the command's operation answers. -/
theorem exec_contextAt {i : Instr} {s t : State} {n : Nat} {c d : Context} (h : exec i s = .next t)
    (hc : s.ctxs[n]? = some c) (hd : t.ctxs[n]? = some d) :
    d = c ∨ ∃ k b, i.selects = some k ∧ k.toNat = n ∧ contextOp i c = .ok (d, b) := by
  have unchanged (ht : t.ctxs = s.ctxs) : d = c := by
    rw [ht, hc] at hd; exact (Option.some.inj hd).symm
  obtain ⟨k, c₁, c', b, hk, hc₁, hop, hx⟩ | ⟨k, c, e, -, -, -, hx⟩ | ⟨k, -, -, hx⟩ | ⟨b, -, -, hx⟩ | ⟨e, -, -, hx⟩ :=
    exec_cases i s <;> rw [hx] at h <;> cases h
  · by_cases hn : k.toNat = n
    · subst hn
      obtain rfl : c₁ = c := Option.some.inj (hc₁.symm.trans hc)
      have hlt := (List.getElem?_eq_some_iff.mp hc).1
      rw [State.respond_ctxs, State.setContext_ctxs, List.getElem?_set_self hlt] at hd
      obtain rfl : c' = d := Option.some.inj hd
      exact .inr ⟨k, b, hk, rfl, hop⟩
    · rw [State.respond_ctxs, State.setContext_ctxs, List.getElem?_set_ne hn, hc] at hd
      exact .inl (Option.some.inj hd).symm
  · exact .inl (unchanged rfl)
  · exact .inl (unchanged rfl)
  · exact .inl (unchanged rfl)
  · exact .inl (unchanged rfl)

/-- A context command whose operation succeeds answers a next state that holds the context it leaves. -/
theorem exec_stores {i : Instr} {s : State} {k : BitVec 4} {c c' : Context} {b : Bytes} (hk : i.selects = some k)
    (hc : s.ctxs[k.toNat]? = some c) (hop : contextOp i c = .ok (c', b)) :
    ∃ t, exec i s = .next t ∧ t.ctxs[k.toNat]? = some c' := by
  refine ⟨(s.setContext k c').respond .ok b, by rw [exec_context i s k c hk hc, hop]; rfl, ?_⟩
  exact List.getElem?_set_self (List.getElem?_eq_some_iff.mp hc).1

/-- A property of contexts that every operation keeps is kept by every command. -/
theorem exec_keeps_contexts {P : Context → Prop}
    (hop : ∀ i c c' b, P c → contextOp i c = .ok (c', b) → P c') {i : Instr} {s t : State}
    (hs : ∀ c ∈ s.ctxs, P c) (h : exec i s = .next t) : ∀ c ∈ t.ctxs, P c := by
  intro d hd
  obtain ⟨n, hn, rfl⟩ := List.getElem_of_mem hd
  have hn' : n < s.ctxs.length := lt_of_lt_of_eq hn (exec_nctx h)
  have hP : P s.ctxs[n] := hs _ (List.getElem_mem hn')
  obtain he | ⟨k, b, -, -, he⟩ :=
    exec_contextAt h (List.getElem?_eq_getElem hn') (List.getElem?_eq_getElem hn)
  · rwa [he]
  · exact hop i _ _ b hP he

/-- A property of contexts that every operation keeps, and that a reset event establishes, is kept by every step. -/
theorem step_keeps_contexts {P : Context → Prop} (hreset : ∀ draw n, P (unspecifiedContext draw n))
    (hop : ∀ i c c' b, P c → contextOp i c = .ok (c', b) → P c') {s t : State}
    (hs : ∀ c ∈ s.ctxs, P c) (h : step s = .next t) : ∀ c ∈ t.ctxs, P c := by
  obtain ⟨-, hx⟩ | ⟨rest, -, hx⟩ | ⟨c, rest, e, -, -, hx⟩ | ⟨c, rest, i, -, -, hx⟩ := step_cases s <;> rw [hx] at h
  · cases h; exact hs
  · cases h
    intro c hc
    rw [State.applyReset_ctxs, List.mem_map] at hc
    obtain ⟨n, -, rfl⟩ := hc
    exact hreset _ n
  · cases h; exact hs
  · exact exec_keeps_contexts (s := { s with input := rest }) hop hs h

/-- No step changes the number of contexts. -/
theorem step_nctx {s t : State} (h : step s = .next t) : t.nctx = s.nctx := by
  obtain ⟨-, hx⟩ | ⟨rest, -, hx⟩ | ⟨c, rest, e, -, -, hx⟩ | ⟨c, rest, i, -, -, hx⟩ := step_cases s <;> rw [hx] at h
  · cases h; rfl
  · cases h; exact State.applyReset_nctx _
  · cases h; rfl
  · exact exec_nctx (s := { s with input := rest }) h

end Sys2Proof.Machine

namespace Sys2Proof.StateProofs

open Sys2Proof Sys2Proof.Machine

/-! ### The invariant of R35 -/

theorem contextInv_of_uninit {c : Context} (h : c.phase = .uninit) : ContextInv c := by
  rw [ContextInv, h]; trivial

theorem contextInv_of_initialized {c : Context} (h : c.phase = .initialized) : ContextInv c ↔ Tracks c [] := by
  rw [ContextInv, h]

theorem contextInv_of_accum {c : Context} (h : c.phase = .accum) :
    ContextInv c ↔ ∃ m, m ≠ [] ∧ Tracks c m := by
  rw [ContextInv, h]

/-- An open context that meets R35 tracks some message. -/
theorem contextInv_tracks {c : Context} (h : ContextInv c) (ho : c.phase.isOpen = true) : ∃ m, Tracks c m := by
  cases hp : c.phase with
  | uninit => simp [hp, Phase.isOpen] at ho
  | initialized => exact ⟨[], (contextInv_of_initialized hp).mp h⟩
  | accum => obtain ⟨m, -, ht⟩ := (contextInv_of_accum hp).mp h; exact ⟨m, ht⟩
  | finalized => simp [hp, Phase.isOpen] at ho

/-- The wipe leaves `H` = 0 in `FINALIZED` (R180). -/
theorem contextInv_wipeContext (c : Context) : ContextInv (wipeContext c) := by
  rw [wipeContext_eq]; rfl

/-- `FEED` keeps R35: the operand is appended to the message, and an operand that is not empty leads to `ACCUM`. -/
theorem contextInv_feedContext {c c' : Context} {data : Bytes} (hi : ContextInv c)
    (h : feedContext c data = .ok c') : ContextInv c' := by
  by_cases hd : data = []
  · subst hd; rwa [feedContext_empty h]
  · obtain ⟨ho, hr⟩ := feedContext_ok_checks h
    obtain ⟨m, ht⟩ := contextInv_tracks hi ho
    obtain ⟨x, hx, htx, hp⟩ := tracks_feedContext c m data ht ho (by rwa [← ht.count])
    obtain rfl : x = c' := Except.ok.inj (hx.symm.trans h)
    have hacc : x.phase = .accum := by simpa [Phase.afterFeed, hd] using hp
    exact (contextInv_of_accum hacc).mpr ⟨m ++ data, by simp [hd], htx⟩

/-- Every operation keeps R35. -/
theorem contextInv_contextOp (i : Instr) (c c' : Context) (b : Bytes) (hi : ContextInv c)
    (h : contextOp i c = .ok (c', b)) : ContextInv c' := by
  obtain ⟨-, -, rfl, -⟩ | ⟨-, data, -, hf, -⟩ | ⟨-, -, -, rfl, -⟩ | ⟨-, rfl, -⟩ := contextOp_ok_cases h
  · exact (contextInv_of_initialized rfl).mpr (tracks_initContext c)
  · exact contextInv_feedContext hi hf
  · exact contextInv_wipeContext _
  · exact hi

/-- Settles O3: `NCTX` never changes, a reset event leaves `UNINIT` everywhere, and each operation keeps R35. -/
theorem everyStepKeepsInvariant : Obligations.EveryStepKeepsInvariant := by
  intro s t ⟨hn, hs⟩ h
  refine ⟨by rwa [step_nctx h], ?_⟩
  exact step_keeps_contexts (fun _ _ => contextInv_of_uninit rfl) contextInv_contextOp hs h

/-! ### `BUFLEN <= 63` in the open phases (R35 (a)) -/

theorem bufferBounded_of_closed {c : Context} (h : c.phase.isOpen = false) : BufferBounded c := by
  intro ho; rw [h] at ho; cases ho

/-- Every operation keeps R35 (a). -/
theorem bufferBounded_contextOp (i : Instr) (c c' : Context) (b : Bytes) (hb : BufferBounded c)
    (h : contextOp i c = .ok (c', b)) : BufferBounded c' := by
  obtain ⟨-, -, rfl, -⟩ | ⟨-, data, -, hf, -⟩ | ⟨-, -, -, rfl, -⟩ | ⟨-, rfl, -⟩ := contextOp_ok_cases h
  · intro _; rw [initContext_buflen]; exact Nat.zero_le _
  · intro _
    obtain ⟨ho, hr⟩ := feedContext_ok_checks hf
    obtain ⟨x, hx, -, hlen, -⟩ := feedContext_ok c data ho (hb ho) hr
    obtain rfl : x = c' := Except.ok.inj (hx.symm.trans hf)
    omega
  · rw [wipeContext_eq]; exact bufferBounded_of_closed rfl
  · exact hb

/-- Settles O4: each operation leaves `BUFLEN` at 0, at a remainder modulo 64, or as it was. -/
theorem everyStepKeepsBufferBound : Obligations.EveryStepKeepsBufferBound := by
  intro s t hs h
  exact ⟨step_keeps_contexts (fun _ _ => bufferBounded_of_closed rfl) bufferBounded_contextOp hs h, step_nctx h⟩

/-! ### Leaving `UNINIT`, and the message a context holds -/

/-- Settles O34: of the operations that change a context, `FEED` and `FINAL` are refused in `UNINIT`. -/
theorem onlyInitLeavesUninit : Obligations.OnlyInitLeavesUninit := by
  intro i s t n c d h hc hd hu hne
  have hclosed : c.phase.isOpen = false := by rw [hu]; rfl
  obtain rfl | ⟨k, b, hk, hn, hop⟩ := exec_contextAt h hc hd
  · exact absurd hu hne
  obtain ⟨ctx, rfl, rfl, -⟩ | ⟨ctx, data, rfl, hf, -⟩ | ⟨ctx, rfl, ho, -⟩ | ⟨hsel, -⟩ := contextOp_ok_cases hop
  · obtain rfl : ctx = k := Option.some.inj hk
    exact ⟨rfl, ctx, rfl, hn⟩
  · rw [feedContext_closed c data hclosed] at hf; cases hf
  · rw [hclosed] at ho; cases ho
  · rw [hsel] at hk; cases hk

/-- Settles O56: `INIT` starts the empty message, and `FEED` appends its operand. -/
theorem contextsTrackTheBytesFed : Obligations.ContextsTrackTheBytesFed := by
  intro ctx s c hc
  refine ⟨?_, fun m data ho ht hr => ?_⟩
  · obtain ⟨t, hx, hd⟩ := exec_stores (i := .init ctx []) rfl hc rfl
    exact ⟨t, _, hx, hd, rfl, tracks_initContext c⟩
  · obtain ⟨c', hf, ht', hp⟩ := tracks_feedContext c m data ht ho hr
    have hop : contextOp (.feed ctx [data]) c = .ok (c', []) := by
      simp only [contextOp, oneOperand, Except.bind, hf, Except.map]
    obtain ⟨t, hx, hd⟩ := exec_stores rfl hc hop
    refine ⟨t, c', hx, hd, ?_, ht'⟩
    simpa only [Phase.afterFeed, List.length_eq_zero_iff] using hp

/-! ### What the host can see (R23, R34, R180) -/

theorem sameContext_of_closed {c d : Context} (hp : c.phase = d.phase) (h : c.phase.isOpen = false) :
    SameContext c d := by
  refine ⟨hp, fun ho => ?_⟩
  rw [h] at ho; cases ho

/-- Two answers the host cannot tell apart: the same error, or the same result bytes with contexts that are alike. -/
inductive SameAnswer : Except Status (Context × Bytes) → Except Status (Context × Bytes) → Prop
  | error (e : Status) : SameAnswer (.error e) (.error e)
  | ok {c d : Context} (b : Bytes) (h : SameContext c d) : SameAnswer (.ok (c, b)) (.ok (d, b))

/-- `INIT` leaves nothing of what was there before but bytes of `BUF` beyond `BUFLEN` (R150). -/
theorem sameContext_initContext (c d : Context) : SameContext (initContext c) (initContext d) :=
  ⟨rfl, fun _ => ⟨rfl, rfl, rfl, rfl⟩⟩

/-- The wipe leaves nothing of what was there before (R180). -/
theorem sameContext_wipeContext (c d : Context) : SameContext (wipeContext c) (wipeContext d) :=
  sameContext_of_closed rfl rfl

/-- `FEED` on two open contexts that are alike leaves two that are alike: what it leaves is a function of `H`, `COUNT`
and the pending bytes (R152). -/
theorem feedContext_ok_alike {c d : Context} {data : Bytes} (hcd : SameContext c d) (ho : c.phase.isOpen = true)
    (hb : c.buflen.toNat ≤ 63) (hr : c.count.toNat + data.length ≤ Config.countMax) :
    ∃ c' d', feedContext c data = .ok c' ∧ feedContext d data = .ok d' ∧ SameContext c' d' := by
  obtain ⟨hp, hreg⟩ := hcd
  obtain ⟨hh, hcnt, hlen, hmem⟩ := hreg ho
  obtain ⟨c', hc', hch, hcl, hcm, hcc, hcp⟩ := feedContext_ok c data ho hb hr
  obtain ⟨d', hd', hdh, hdl, hdm, hdc, hdp⟩ := feedContext_ok d data (hp ▸ ho) (hlen ▸ hb) (hcnt ▸ hr)
  rw [← hmem] at hdh hdl hdm
  refine ⟨c', d', hc', hd', by rw [hcp, hdp, hp], fun _ => ⟨?_, ?_, ?_, ?_⟩⟩
  · rw [hch, hdh, hh]
  · exact BitVec.eq_of_toNat_eq (by rw [hcc, hdc, hcnt])
  · exact BitVec.eq_of_toNat_eq (by rw [hcl, hdl])
  · rw [hcm, hdm]

/-- The digest of an open context is a function of `H`, `COUNT` and the pending bytes (R180, R182). -/
theorem padAndCompress_h_alike {c d : Context} (hcd : SameContext c d) (ho : c.phase.isOpen = true)
    (hb : c.buflen.toNat ≤ 63) : (padAndCompress c).h = (padAndCompress d).h := by
  obtain ⟨hh, hcnt, hlen, hmem⟩ := hcd.2 ho
  have hbits : bitLength c = bitLength d := by rw [bitLength, bitLength, hcnt]
  by_cases hlow : c.buflen.toNat ≤ 55
  · rw [padAndCompress_low c hlow, padAndCompress_low d (hlen ▸ hlow), hmem, hbits, hh, hlen]
  · have hhigh : 56 ≤ c.buflen.toNat := by omega
    rw [padAndCompress_high c hhigh hb, padAndCompress_high d (hlen ▸ hhigh) (hlen ▸ hb), hmem, hbits, hh, hlen]

/-- `FEED` answers alike on contexts that are alike. -/
theorem sameAnswer_feedContext {c d : Context} (data : Bytes) (hb : BufferBounded c) (hcd : SameContext c d) :
    SameAnswer ((feedContext c data).map fun c' => (c', [])) ((feedContext d data).map fun d' => (d', [])) := by
  obtain ⟨hcl, hc⟩ | ⟨ho, hr, hc⟩ | ⟨ho, hr, -⟩ := feedContext_cases c data
  · rw [hc, feedContext_closed d data (hcd.1 ▸ hcl)]; exact .error _
  · obtain ⟨-, hcnt, -⟩ := hcd.2 ho
    rw [hc, feedContext_tooLong d data (hcd.1 ▸ ho) (hcnt ▸ hr)]; exact .error _
  · obtain ⟨c', d', hc, hd, hcd'⟩ := feedContext_ok_alike hcd ho (hb ho) hr
    rw [hc, hd]; exact .ok [] hcd'

/-- `FINAL` answers alike on contexts that are alike. -/
theorem sameAnswer_finalContext {c d : Context} (hb : BufferBounded c) (hcd : SameContext c d) :
    SameAnswer (finalContext c) (finalContext d) := by
  cases ho : c.phase.isOpen with
  | false => rw [finalContext_error c ho, finalContext_error d (hcd.1 ▸ ho)]; exact .error _
  | true =>
    rw [finalContext_ok c ho, finalContext_ok d (hcd.1 ▸ ho), ← padAndCompress_h_alike hcd ho (hb ho)]
    exact .ok _ (sameContext_wipeContext _ _)

/-- Every operation answers alike on contexts that are alike. -/
theorem sameAnswer_contextOp (i : Instr) {c d : Context} (hb : BufferBounded c) (hcd : SameContext c d) :
    SameAnswer (contextOp i c) (contextOp i d) := by
  cases i with
  | init k ps =>
    obtain ⟨-, hp⟩ | ⟨-, hp⟩ := noOperand_cases ps <;> rw [contextOp, contextOp, hp]
    · exact .ok [] (sameContext_initContext c d)
    · exact .error _
  | feed k ps =>
    obtain ⟨data, -, hp⟩ | ⟨-, hp⟩ := oneOperand_cases ps <;> rw [contextOp, contextOp, hp]
    · exact sameAnswer_feedContext data hb hcd
    · exact .error _
  | final k ps =>
    obtain ⟨-, hp⟩ | ⟨-, hp⟩ := noOperand_cases ps <;> rw [contextOp, contextOp, hp]
    · exact sameAnswer_finalContext hb hcd
    · exact .error _
  | digest ps => exact .ok [] hcd
  | combine ps => exact .ok [] hcd
  | auth ps => exact .ok [] hcd

/-- Two lists related entry by entry have no entry at `n`, or two related ones. -/
theorem forall₂_getElem?_cases {α : Type} {R : α → α → Prop} {l₁ l₂ : List α} (h : List.Forall₂ R l₁ l₂) (n : Nat) :
    (l₁[n]? = none ∧ l₂[n]? = none) ∨ ∃ a b, l₁[n]? = some a ∧ l₂[n]? = some b ∧ R a b := by
  by_cases hn : n < l₁.length
  · have hn₂ : n < l₂.length := h.length_eq ▸ hn
    exact .inr ⟨_, _, List.getElem?_eq_getElem hn, List.getElem?_eq_getElem hn₂, h.get hn hn₂⟩
  · exact .inl ⟨List.getElem?_eq_none (by omega), List.getElem?_eq_none (by rw [← h.length_eq]; omega)⟩

/-- Replacing entry `n` of both lists by two related ones keeps them related. -/
theorem forall₂_set {α : Type} {R : α → α → Prop} {l₁ l₂ : List α} (h : List.Forall₂ R l₁ l₂) (n : Nat) {a b : α}
    (hab : R a b) : List.Forall₂ R (l₁.set n a) (l₂.set n b) := by
  induction h generalizing n with
  | nil => exact .nil
  | cons hd tl ih =>
    cases n with
    | zero => exact .cons hab tl
    | succ n => exact .cons hd (ih n)

/-- A command has the same effect on two machines that the host cannot tell apart, and the contexts stay alike. -/
theorem effect_alike (i : Instr) {s t : State} (hb : ∀ c ∈ s.ctxs, BufferBounded c) (h : SameToHost s t) :
    List.Forall₂ SameContext (effect i s).1 (effect i t).1 ∧ (effect i s).2 = (effect i t).2 := by
  obtain ⟨hctx, hfault, -, -⟩ := h
  unfold effect
  cases i.selects with
  | none => cases derivedOp i <;> exact ⟨hctx, by rw [hfault]⟩
  | some k =>
    obtain ⟨hs, ht⟩ | ⟨c, d, hs, ht, hcd⟩ := forall₂_getElem?_cases hctx k.toNat
    · simp only [hs, ht]; exact ⟨hctx, by rw [hfault]⟩
    · have hans := sameAnswer_contextOp i (hb c (List.mem_of_getElem? hs)) hcd
      simp only [hs, ht]
      generalize contextOp i c = x, contextOp i d = y at hans ⊢
      cases hans with
      | error e => exact ⟨hctx, by rw [hfault]⟩
      | ok b hcd' => exact ⟨forall₂_set hctx _ hcd', by rw [hfault]⟩

/-- Every command keeps two machines alike to the host. -/
theorem exec_alike (i : Instr) {s t : State} (hb : ∀ c ∈ s.ctxs, BufferBounded c) (h : SameToHost s t) :
    ∃ s' t', exec i s = .next s' ∧ exec i t = .next t' ∧ SameToHost s' t' := by
  obtain ⟨hctx, heff⟩ := effect_alike i hb h
  obtain ⟨-, -, hin, hresp⟩ := h
  exact ⟨_, _, exec_effect i s, exec_effect i t, hctx, by rw [heff], hin, by rw [heff, hresp]⟩

/-- Two machines alike to the host have as many contexts. -/
theorem sameToHost_nctx {s t : State} (h : SameToHost s t) : s.nctx = t.nctx := h.1.length_eq

/-- Taking the next event off both ports keeps two machines alike to the host. -/
theorem sameToHost_withInput {s t : State} (h : SameToHost s t) (rest : List HostEvent) :
    SameToHost { s with input := rest } { t with input := rest } := by
  obtain ⟨hctx, hfault, -, hresp⟩ := h
  exact ⟨hctx, hfault, rfl, hresp⟩

/-- A reset event closes every context, whatever values it leaves (R290). -/
theorem sameToHost_applyReset {s t : State} (h : SameToHost s t) : SameToHost s.applyReset t.applyReset := by
  have hn := sameToHost_nctx h
  obtain ⟨-, -, hin, hresp⟩ := h
  refine ⟨?_, rfl, hin, hresp⟩
  rw [State.applyReset_ctxs, State.applyReset_ctxs, hn, List.forall₂_map_left_iff,
    List.forall₂_map_right_iff, List.forall₂_same]
  exact fun _ _ => sameContext_of_closed rfl rfl

/-- An error response keeps two machines alike to the host. -/
theorem sameToHost_raise {s t : State} (h : SameToHost s t) (e : Status) : SameToHost (s.raise e) (t.raise e) := by
  obtain ⟨hctx, hfault, hin, hresp⟩ := h
  exact ⟨hctx, by simp [hfault], hin, by simp [hresp]⟩

/-- Settles O54: both machines take the same event, and every kind of event keeps them alike. -/
theorem unspecifiedRegistersAreNeverSeen : Obligations.UnspecifiedRegistersAreNeverSeen := by
  intro s t hb h
  have hn := sameToHost_nctx h
  have ⟨_, _, hin, _⟩ := h
  obtain ⟨hs, hx⟩ | ⟨rest, hs, hx⟩ | ⟨c, rest, e, hs, hd, hx⟩ | ⟨c, rest, i, hs, hd, hx⟩ := step_cases s
  · exact ⟨_, _, hx, step_idle t (hin ▸ hs), h⟩
  · exact ⟨_, _, hx, step_reset t rest (hin ▸ hs), sameToHost_applyReset (sameToHost_withInput h rest)⟩
  · exact ⟨_, _, hx, step_illegal t c rest e (hin ▸ hs) (hn ▸ hd), sameToHost_raise (sameToHost_withInput h rest) _⟩
  · rw [hx, step_command t c rest i (hin ▸ hs) (hn ▸ hd)]
    exact exec_alike i hb (sameToHost_withInput h rest)

/-! ### Reset (R34) -/

theorem resetWith_nctx (n : Nat) : (State.resetWith n).nctx = n := List.length_replicate

/-- Every context of a machine right after reset is `Context.reset`. -/
theorem eq_reset_of_mem_resetWith {n : Nat} {c : Context} (h : c ∈ (State.resetWith n).ctxs) : c = Context.reset :=
  List.eq_of_mem_replicate h

/-- A machine with 1 to 16 contexts meets R35 right after reset, since every context is in `UNINIT`. -/
theorem machineInv_resetWith (n : Nat) (h₁ : 1 ≤ n) (h₂ : n ≤ 16) : MachineInv (State.resetWith n) := by
  refine ⟨by rw [resetWith_nctx]; exact ⟨h₁, h₂⟩, fun c hc => ?_⟩
  rw [eq_reset_of_mem_resetWith hc]
  exact contextInv_of_uninit rfl

/-- Settles O1: every context of the reset machine is `Context.reset`; `State.reset` has 16 of them. -/
theorem resetStateIsUninitialised : Obligations.ResetStateIsUninitialised := by
  refine ⟨fun n => ⟨resetWith_nctx n, fun c hc => ?_, rfl, rfl, rfl⟩, Config.resetContexts, by decide, by decide, rfl⟩
  rw [eq_reset_of_mem_resetWith hc]; rfl

/-- Settles O2: `ContextInv` asks nothing of a context in `UNINIT`. -/
theorem resetStateMeetsInvariant : Obligations.ResetStateMeetsInvariant :=
  ⟨machineInv_resetWith, machineInv_resetWith Config.resetContexts (by decide) (by decide)⟩

end Sys2Proof.StateProofs

/-! SUPPORT. The proofs of the statements on memory (20_memory.md): byte orders of words, digests and the trailer (R52 to
R54), and the isolation of contexts (R61). -/

namespace Sys2Proof.Machine

/-! ### Bytes of words, words of bytes (R14) -/

/-- Byte `j` of `BE32(w)` is bits `31 - 8j : 24 - 8j` of `w`. -/
theorem be32Bytes_getElem? (w : Word) {j : Nat} (hj : j < 4) :
    (be32Bytes w)[j]? = some (w.extractLsb' (24 - 8 * j) 8) := by
  interval_cases j <;> rfl

/-- In the `BE32` of several words, in order, byte `4k + j` is byte `j` of word `k`. -/
theorem flatMap_be32Bytes_getElem? (ws : List Word) (k : Nat) {j : Nat} (hj : j < 4) :
    (ws.flatMap be32Bytes)[4 * k + j]? = ws[k]?.bind fun w => (be32Bytes w)[j]? := by
  induction ws generalizing k with
  | nil => rfl
  | cons w ws ih =>
    rw [List.flatMap_cons]
    cases k with
    | zero => rw [List.getElem?_append_left (by simp; omega)]; simp
    | succ k =>
      rw [List.getElem?_append_right (by simp; omega), List.getElem?_cons_succ, ← ih k, be32Bytes_length]
      congr 1; omega

theorem serialise_eq_flatMap (h : HashState) : serialise h = [h.h0, h.h1, h.h2, h.h3, h.h4].flatMap be32Bytes := by
  simp [serialise]

/-- `be32` as a number: four bytes, the first the most significant. -/
theorem be32_toNat (s : Bytes) (o : Nat) : (be32 s o).toNat =
    (s.getD o 0).toNat * 2 ^ 24 + (s.getD (o + 1) 0).toNat * 2 ^ 16 + (s.getD (o + 2) 0).toNat * 2 ^ 8 +
      (s.getD (o + 3) 0).toNat := by
  have glue {m : Nat} (x : BitVec m) (y : Byte) : (x ++ y).toNat = x.toNat * 2 ^ 8 + y.toNat := by
    rw [BitVec.toNat_append, ← Nat.shiftLeft_add_eq_or_of_lt y.isLt, Nat.shiftLeft_eq]
  rw [be32, glue, glue, glue]; omega

/-- `be32` in the second part of a byte string. -/
theorem be32_append_right (s t : Bytes) (o : Nat) : be32 (s ++ t) (s.length + o) = be32 t o := by
  have skip (j : Nat) : (s ++ t).getD (s.length + j) 0 = t.getD j 0 := by
    rw [List.getD_append_right _ _ _ _ (by omega), Nat.add_sub_cancel_left]
  simp only [be32, Nat.add_assoc, skip]

/-- Byte `m` of a 64-bit value as a number. -/
theorem extractByte_toNat (v : BitVec 64) (m : Nat) : (v.extractLsb' m 8).toNat = v.toNat / 2 ^ m % 256 := by
  rw [BitVec.extractLsb'_toNat, Nat.shiftRight_eq_div_pow]

/-- Reading `BE64(v)` back, the most significant byte first, gives `v`. -/
theorem foldl_be64Bytes (v : BitVec 64) : (be64Bytes v).foldl (fun acc b => 256 * acc + b.toNat) 0 = v.toNat := by
  have := v.isLt
  simp only [be64Bytes, List.foldl, extractByte_toNat]
  omega

/-- The two words of `BE64(v)` are its two halves. -/
theorem be32_be64Bytes (v : BitVec 64) :
    (be32 (be64Bytes v) 0).toNat * 2 ^ 32 + (be32 (be64Bytes v) 4).toNat = v.toNat := by
  have := v.isLt
  simp only [be32_toNat, be64Bytes, List.getD_cons_zero, List.getD_cons_succ, extractByte_toNat]
  omega

/-! ### The first sixteen schedule words (R52, R120) -/

@[simp] theorem loadWords_length (blk : Block) : (loadWords blk).length = 16 := by simp [loadWords]

/-- Extending a schedule keeps the slots it has. -/
theorem extendSchedule_getElem? (k : Nat) (w : List Word) {i : Nat} (hi : i < w.length) :
    (extendSchedule k w)[i]? = w[i]? := by
  induction k generalizing w with
  | zero => rfl
  | succ k ih => rw [extendSchedule, ih _ (by simp; omega), List.getElem?_append_left hi]

/-- `W[i]` for `i <= 15` is a big-endian word of the block. -/
theorem expand_getD_low (blk : Block) {i : Nat} (hi : i < 16) : (expand blk).getD i 0 = be32 blk.toList (4 * i) := by
  rw [List.getD_eq_getElem?_getD, expand, extendSchedule_getElem? _ _ (by simpa using hi)]
  simp [loadWords, hi]

/-- `W[14 + i]` of a block given as 56 bytes and 8 more is a big-endian word of the 8. -/
theorem expand_toBlock_getD (front tail : Bytes) (hf : front.length = 56) (ht : tail.length = 8) {i : Nat} (hi : i < 2) :
    (expand (toBlock (front ++ tail))).getD (14 + i) 0 = be32 tail (4 * i) := by
  rw [expand_getD_low _ (by omega), toBlock_toList _ (by simp [hf, ht]),
    show 4 * (14 + i) = front.length + 4 * i by omega, be32_append_right]

/-- The words `W[14]` and `W[15]` of a block that ends in `BE64(v)` are the two halves of `v`. -/
theorem expand_toBlock_be64Bytes (front : Bytes) (v : BitVec 64) (hf : front.length = 56) :
    ((expand (toBlock (front ++ be64Bytes v))).getD 14 0).toNat * 2 ^ 32 +
      ((expand (toBlock (front ++ be64Bytes v))).getD 15 0).toNat = v.toNat := by
  have half {i : Nat} := expand_toBlock_getD front (be64Bytes v) hf (be64Bytes_length v) (i := i)
  rw [half (i := 0) (by omega), half (i := 1) (by omega), be32_be64Bytes]

/-- What follows the marker and the zeros of `PAD(n)` is its trailer (R181). -/
theorem padding_drop (n : Nat) : (padding n).drop (1 + padZeros n) = be64Bytes (BitVec.ofNat 64 (8 * n)) :=
  List.drop_left' (by simp; omega)

/-- No bit of the bit count is lost up to `COUNT_MAX` (R54). -/
theorem bitCount_toNat {n : Nat} (hn : n ≤ Config.countMax) : (BitVec.ofNat 64 (8 * n)).toNat = 8 * n := by
  simp only [Config.countMax] at hn
  rw [BitVec.toNat_ofNat]; omega

/-! ### The state after a command (R61, R202) -/

/-- The response to a command. -/
def response (i : Instr) (s : State) : Response := (effect i s).2.2

/-- The state after a command. -/
def after (i : Instr) (s : State) : State :=
  { s with
    ctxs := (effect i s).1
    fault := (effect i s).2.1
    responses := s.responses ++ [response i s] }

theorem exec_after (i : Instr) (s : State) : exec i s = .next (after i s) := exec_effect i s

theorem eq_after {i : Instr} {s t : State} (h : exec i s = .next t) : t = after i s := by
  rw [exec_after] at h; exact (Host.Outcome.next.inj h).symm

@[simp] theorem after_input (i : Instr) (s : State) : (after i s).input = s.input := rfl
@[simp] theorem after_free (i : Instr) (s : State) : (after i s).free = s.free := rfl
@[simp] theorem after_responses (i : Instr) (s : State) :
    (after i s).responses = s.responses ++ [response i s] := rfl

/-- The command does not select context number `n`. -/
def Spares (i : Instr) (n : Nat) : Prop := ∀ ctx, i.selects = some ctx → ctx.toNat ≠ n

/-- Two machines alike in the context that the command selects, if it selects one. -/
def ReadsAlike (i : Instr) (s t : State) : Prop :=
  ∀ ctx, i.selects = some ctx → s.ctxs[ctx.toNat]? = t.ctxs[ctx.toNat]?

theorem spares_or_selects (i : Instr) (n : Nat) : Spares i n ∨ ∃ ctx, i.selects = some ctx ∧ ctx.toNat = n := by
  rw [or_iff_not_imp_right]
  exact fun h ctx hs hn => h ⟨ctx, hs, hn⟩

section
variable {i : Instr} {s : State} {k : BitVec 4} {c c' : Context} {b : Bytes} {e : Status}

/-! The effect of a command, one equation per case. -/

theorem effect_derived_ok (hk : i.selects = none) (hd : derivedOp i = .ok b) :
    effect i s = (s.ctxs, s.fault, ⟨.ok, b⟩) := by
  simp only [effect, hk, hd]

theorem effect_derived_error (hk : i.selects = none) (hd : derivedOp i = .error e) :
    effect i s = (s.ctxs, faultAfter s.fault e, ⟨e, []⟩) := by
  simp only [effect, hk, hd]

theorem effect_noContext (hk : i.selects = some k) (hc : s.ctxs[k.toNat]? = none) :
    effect i s = (s.ctxs, s.fault, ⟨.errIllegal, []⟩) := by
  simp only [effect, hk, hc]

theorem effect_context_ok (hk : i.selects = some k) (hc : s.ctxs[k.toNat]? = some c)
    (hop : contextOp i c = .ok (c', b)) : effect i s = (s.ctxs.set k.toNat c', s.fault, ⟨.ok, b⟩) := by
  simp only [effect, hk, hc, hop]

theorem effect_context_error (hk : i.selects = some k) (hc : s.ctxs[k.toNat]? = some c)
    (hop : contextOp i c = .error e) : effect i s = (s.ctxs, faultAfter s.fault e, ⟨e, []⟩) := by
  simp only [effect, hk, hc, hop]

end

/-- Everything the effect of a command can be: its context replaced, nothing changed, or an error response. -/
theorem effect_cases (i : Instr) (s : State) :
    (∃ k c b, i.selects = some k ∧ effect i s = (s.ctxs.set k.toNat c, s.fault, ⟨.ok, b⟩)) ∨
    (∃ b, effect i s = (s.ctxs, s.fault, ⟨.ok, b⟩)) ∨
    (∃ e, effect i s = (s.ctxs, faultAfter s.fault e, ⟨e, []⟩)) := by
  cases hk : i.selects with
  | none =>
    cases hd : derivedOp i with
    | ok b => exact .inr (.inl ⟨b, effect_derived_ok hk hd⟩)
    | error e => exact .inr (.inr ⟨e, effect_derived_error hk hd⟩)
  | some k =>
    cases hc : s.ctxs[k.toNat]? with
    | none => exact .inr (.inr ⟨.errIllegal, by rw [effect_noContext hk hc]; simp [faultAfter, Status.setsFault]⟩)
    | some c =>
      cases hop : contextOp i c with
      | ok x => exact .inl ⟨k, x.1, x.2, rfl, effect_context_ok hk hc hop⟩
      | error e => exact .inr (.inr ⟨e, effect_context_error hk hc hop⟩)

/-- `FAULT` after a command is set by the status of its response (R250, R258). -/
theorem after_fault (i : Instr) (s : State) :
    (after i s).fault = (s.fault || (response i s).status.setsFault) := by
  simp only [after, response]
  obtain ⟨k, c, b, -, he⟩ | ⟨b, he⟩ | ⟨e, he⟩ := effect_cases i s <;> rw [he]
  · simp [Status.setsFault]
  · simp [Status.setsFault]
  · rfl

/-- A command's only change to the contexts is to replace the one it selects. -/
theorem after_ctxs_cases (i : Instr) (s : State) :
    (after i s).ctxs = s.ctxs ∨ ∃ k c, i.selects = some k ∧ (after i s).ctxs = s.ctxs.set k.toNat c := by
  simp only [after]
  obtain ⟨k, c, b, hk, he⟩ | ⟨b, he⟩ | ⟨e, he⟩ := effect_cases i s <;> rw [he]
  · exact .inr ⟨k, c, hk, rfl⟩
  · exact .inl rfl
  · exact .inl rfl

theorem after_ctxs_derived {i : Instr} (s : State) (hi : i.selects = none) : (after i s).ctxs = s.ctxs := by
  obtain he | ⟨k, -, hk, -⟩ := after_ctxs_cases i s
  · exact he
  · rw [hi] at hk; cases hk

/-- A context that a command does not select stays as it was. -/
theorem after_ctxs_spared {i : Instr} {n : Nat} (s : State) (hn : Spares i n) :
    (after i s).ctxs[n]? = s.ctxs[n]? := by
  obtain he | ⟨k, c, hk, he⟩ := after_ctxs_cases i s
  · rw [he]
  · rw [he, List.getElem?_set_ne (hn k hk)]

/-- The response is a function of the selected context and the command. -/
theorem response_readsAlike {i : Instr} {s t : State} (h : ReadsAlike i s t) : response i s = response i t := by
  unfold response
  cases hk : i.selects with
  | none =>
    cases hd : derivedOp i with
    | ok b => rw [effect_derived_ok hk hd, effect_derived_ok hk hd]
    | error e => rw [effect_derived_error hk hd, effect_derived_error hk hd]
  | some k =>
    cases hs : s.ctxs[k.toNat]? with
    | none => rw [effect_noContext hk hs, effect_noContext hk (h k hk ▸ hs)]
    | some c =>
      have ht := h k hk ▸ hs
      cases hop : contextOp i c with
      | ok x => rw [effect_context_ok hk hs hop, effect_context_ok hk ht hop]
      | error e => rw [effect_context_error hk hs hop, effect_context_error hk ht hop]

/-- What a command leaves in the selected context is a function of that context and the command. -/
theorem after_readsAlike {i : Instr} {s t : State} (h : ReadsAlike i s t) : ReadsAlike i (after i s) (after i t) := by
  intro k hk
  have hst := h k hk
  simp only [after]
  cases hs : s.ctxs[k.toNat]? with
  | none => rw [effect_noContext hk hs, effect_noContext hk (hst ▸ hs)]; exact hst
  | some c =>
    have ht := hst ▸ hs
    cases hop : contextOp i c with
    | ok x =>
      rw [effect_context_ok hk hs hop, effect_context_ok hk ht hop,
        List.getElem?_set_self (List.getElem?_eq_some_iff.mp hs).1,
        List.getElem?_set_self (List.getElem?_eq_some_iff.mp ht).1]
    | error e => rw [effect_context_error hk hs hop, effect_context_error hk ht hop]; exact hst

/-! ### Two commands that share no context (R61) -/

/-- No context is selected by both commands. -/
def ShareNoContext (i j : Instr) : Prop := ∀ a b, i.selects = some a → j.selects = some b → a ≠ b

theorem ShareNoContext.symm {i j : Instr} (h : ShareNoContext i j) : ShareNoContext j i :=
  fun a b ha hb => (h b a hb ha).symm

theorem ShareNoContext.spares {i j : Instr} (h : ShareNoContext i j) {k : BitVec 4} (hk : j.selects = some k) :
    Spares i k.toNat :=
  fun a ha hn => h a k ha hk (BitVec.eq_of_toNat_eq hn)

theorem ShareNoContext.readsAlike {i j : Instr} (h : ShareNoContext i j) (s : State) : ReadsAlike j (after i s) s :=
  fun _ hk => after_ctxs_spared s (h.spares hk)

/-- A command's response is the same after a command that shares no context with it. -/
theorem ShareNoContext.response_after {i j : Instr} (h : ShareNoContext i j) (s : State) :
    response j (after i s) = response j s :=
  response_readsAlike (h.readsAlike s)

/-- A context that the first of the two does not select ends as if the second had been issued alone. -/
theorem ShareNoContext.after_after_spared {i j : Instr} (h : ShareNoContext i j) (s : State) {n : Nat} (hn : Spares i n) :
    (after j (after i s)).ctxs[n]? = (after j s).ctxs[n]? := by
  obtain hj | ⟨k, hk, rfl⟩ := spares_or_selects j n
  · rw [after_ctxs_spared _ hj, after_ctxs_spared _ hj, after_ctxs_spared _ hn]
  · exact after_readsAlike (h.readsAlike s) k hk

theorem ShareNoContext.ctxs_comm {i j : Instr} (h : ShareNoContext i j) (s : State) :
    (after j (after i s)).ctxs = (after i (after j s)).ctxs := by
  refine List.ext_getElem? fun n => ?_
  obtain hi | ⟨k, hk, rfl⟩ := spares_or_selects i n
  · rw [h.after_after_spared s hi, after_ctxs_spared _ hi]
  · have hj := h.symm.spares hk
    rw [h.symm.after_after_spared s hj, after_ctxs_spared _ hj]

theorem ShareNoContext.fault_comm {i j : Instr} (h : ShareNoContext i j) (s : State) :
    (after j (after i s)).fault = (after i (after j s)).fault := by
  simp only [after_fault, h.response_after, h.symm.response_after]
  exact Bool.or_right_comm _ _ _

end Sys2Proof.Machine

namespace Sys2Proof.MemoryProofs

open Sys2Proof Sys2Proof.Machine

/-- Settles O17: the schedule's first sixteen slots are the words loaded from the block. -/
theorem blockWordsAreBigEndian : Obligations.BlockWordsAreBigEndian := by
  intro blk i hi
  rw [expand_getD_low blk (by omega), be32_toNat]

/-- Settles O21: a digest is the `BE32` of the five words, in order. -/
theorem digestIsBigEndian : Obligations.DigestIsBigEndian := by
  refine fun h => ⟨serialise_length h, fun k hk j hj => ?_⟩
  rw [serialise_eq_flatMap, flatMap_be32Bytes_getElem? _ _ hj, List.getElem?_eq_getElem hk, Option.bind_some,
    be32Bytes_getElem? _ hj, List.getD_eq_getElem _ _ hk]

/-- Settles O22: the trailer is `BE64` of a bit count that fits in 64 bits, and its halves are two words of the block. -/
theorem trailerIsExactBitCount : Obligations.TrailerIsExactBitCount := by
  intro n hn
  rw [padding_drop]
  refine ⟨by rw [foldl_be64Bytes, bitCount_toNat hn], fun front hf => ?_⟩
  rw [expand_toBlock_be64Bytes front _ hf, bitCount_toNat hn]

/-- Settles O51: the state after a command differs in the selected context, `FAULT` and one response at most. -/
theorem commandsWriteOnlyTheirContext : Obligations.CommandsWriteOnlyTheirContext := by
  intro i s t h
  refine ⟨exec_nctx h, ?_⟩
  obtain rfl := eq_after h
  exact ⟨rfl, rfl, ⟨_, after_responses i s⟩, fun _ hn => after_ctxs_spared s hn, after_ctxs_derived s⟩

/-- Settles O52: the effect is a function of the selected context, and `FAULT` follows from the response. -/
theorem commandsReadOnlyTheirContext : Obligations.CommandsReadOnlyTheirContext := by
  intro i s₁ s₂ h
  have hr := response_readsAlike h
  refine ⟨_, _, response i s₁, exec_after i s₁, exec_after i s₂, rfl, by rw [after_responses, hr],
    after_readsAlike h, fun hf => ?_⟩
  rw [after_fault, after_fault, hr, hf]

/-- Settles O53: each command leaves alone what the other reads. -/
theorem commandsOnDifferentContextsCommute : Obligations.CommandsOnDifferentContextsCommute := by
  intro i j s (h : ShareNoContext i j)
  refine ⟨_, _, _, _, response i s, response j s, exec_after i s, exec_after j _, exec_after j s, exec_after i _,
    ?_, ?_, h.ctxs_comm s, h.fault_comm s⟩
  · rw [after_responses, after_responses, h.response_after, List.append_assoc]; rfl
  · rw [after_responses, after_responses, h.symm.response_after, List.append_assoc]; rfl

end Sys2Proof.MemoryProofs

/-! SUPPORT. The proofs of the statements on encoding (30_encoding.md): what the decoder answers for each word (R76, R77),
that it inverts the encoder (R71, R72), and how many result bytes each command answers (R75). -/

namespace Sys2Proof

/-! ### The fields of a word (R71, R72) -/

@[simp] theorem opField_encode (i : Instr) : opField (encode i).word = opcode i :=
  (Laws.EncodedWord.split_word _ _).1

@[simp] theorem ctxField_encode (i : Instr) : ctxField (encode i).word = contextBits i :=
  (Laws.EncodedWord.split_word _ _).2

/-- A word is its two fields, `ctx` above `op`. -/
theorem ctxField_append_opField (w : BitVec 8) : ctxField w ++ opField w = w := by
  revert w; decide

theorem contextBits_context {i : Instr} {k : BitVec 4} (hk : i.selects = some k) : contextBits i = k := by
  rw [contextBits, hk, Option.getD_some]

theorem contextBits_derived {i : Instr} (hk : i.selects = none) : contextBits i = 0 := by
  rw [contextBits, hk, Option.getD_none]

/-- The context commands have the operation codes 1 to 3. -/
theorem opcode_context {i : Instr} {k : BitVec 4} (hk : i.selects = some k) :
    1 ≤ (opcode i).toNat ∧ (opcode i).toNat ≤ 3 := by
  cases i with
  | init ctx ps => simp [opcode]
  | feed ctx ps => simp [opcode]
  | final ctx ps => simp [opcode]
  | digest ps => cases hk
  | combine ps => cases hk
  | auth ps => cases hk

/-- The derived commands have the operation codes 4 to 6. -/
theorem opcode_derived {i : Instr} (hk : i.selects = none) : 4 ≤ (opcode i).toNat ∧ (opcode i).toNat ≤ 6 := by
  cases i with
  | init ctx ps => cases hk
  | feed ctx ps => cases hk
  | final ctx ps => cases hk
  | digest ps => simp [opcode]
  | combine ps => simp [opcode]
  | auth ps => simp [opcode]

theorem legal_context {i : Instr} {k : BitVec 4} (hk : i.selects = some k) (nctx : Nat) :
    i.legal nctx = true ↔ k.toNat < nctx := by
  simp [Instr.legal, hk]

theorem legal_derived {i : Instr} (hk : i.selects = none) (nctx : Nat) : i.legal nctx = true := by
  simp [Instr.legal, hk]

/-! ### What the decoder answers (R76, R77) -/

/-- The instruction that a command names by its operation code, its packets and, where the instruction selects a context,
its `ctx` field, before the checks of R76 (b) and (c). -/
structure ReadsAs (c : Command) (i : Instr) : Prop where
  op      : opField c.word = opcode i
  packets : c.packets = i.packets
  ctx     : ∀ k, i.selects = some k → ctxField c.word = k

/-- R76 (a): the operation code is `0x0` or in `0x7..0xf`. -/
def ReservedOp (c : Command) : Prop := (opField c.word).toNat = 0 ∨ 7 ≤ (opField c.word).toNat

theorem readsAs_encode (i : Instr) : ReadsAs (encode i) i :=
  ⟨opField_encode i, rfl, fun _ hk => (ctxField_encode i).trans (contextBits_context hk)⟩

/-- A command with the `ctx` bits of the instruction it reads as is that instruction's encoding. -/
theorem ReadsAs.encode_eq {c : Command} {i : Instr} (h : ReadsAs c i) (hctx : ctxField c.word = contextBits i) :
    encode i = c := by
  rw [encode, ← hctx, ← h.op, ctxField_append_opField, ← h.packets]

/-- The sixteen operation codes: six commands and the reserved ones (R72). -/
theorem op_cases (op : BitVec 4) :
    op = 0x1#4 ∨ op = 0x2#4 ∨ op = 0x3#4 ∨ op = 0x4#4 ∨ op = 0x5#4 ∨ op = 0x6#4 ∨ op.toNat = 0 ∨ 7 ≤ op.toNat := by
  revert op; decide

theorem readsAs_or_reservedOp (c : Command) : (∃ i, ReadsAs c i) ∨ ReservedOp c := by
  obtain h | h | h | h | h | h | h := op_cases (opField c.word)
  · exact .inl ⟨.init (ctxField c.word) c.packets, h, rfl, fun _ => Option.some.inj⟩
  · exact .inl ⟨.feed (ctxField c.word) c.packets, h, rfl, fun _ => Option.some.inj⟩
  · exact .inl ⟨.final (ctxField c.word) c.packets, h, rfl, fun _ => Option.some.inj⟩
  · exact .inl ⟨.digest c.packets, h, rfl, nofun⟩
  · exact .inl ⟨.combine c.packets, h, rfl, nofun⟩
  · exact .inl ⟨.auth c.packets, h, rfl, nofun⟩
  · exact .inr h

/-- A context command decodes exactly when its context exists (R76 (b)). -/
theorem decode_context {c : Command} {i : Instr} {k : BitVec 4} (h : ReadsAs c i) (hk : i.selects = some k) (nctx : Nat) :
    decode nctx c = if k.toNat < nctx then .ok i else .error .noSuchContext := by
  have hctx := h.ctx k hk
  cases i with
  | init ctx ps => cases hk; simp only [decode, decodeContextCommand, h.op, opcode, hctx, h.packets, Instr.packets]
  | feed ctx ps => cases hk; simp only [decode, decodeContextCommand, h.op, opcode, hctx, h.packets, Instr.packets]
  | final ctx ps => cases hk; simp only [decode, decodeContextCommand, h.op, opcode, hctx, h.packets, Instr.packets]
  | digest ps => cases hk
  | combine ps => cases hk
  | auth ps => cases hk

/-- A derived command decodes exactly when its `ctx` field is zero (R76 (c)). -/
theorem decode_derived {c : Command} {i : Instr} (h : ReadsAs c i) (hk : i.selects = none) (nctx : Nat) :
    decode nctx c = if ctxField c.word = 0 then .ok i else .error .contextNotZero := by
  cases i with
  | init ctx ps => cases hk
  | feed ctx ps => cases hk
  | final ctx ps => cases hk
  | digest ps => simp only [decode, decodeDerivedCommand, h.op, opcode, h.packets, Instr.packets]
  | combine ps => simp only [decode, decodeDerivedCommand, h.op, opcode, h.packets, Instr.packets]
  | auth ps => simp only [decode, decodeDerivedCommand, h.op, opcode, h.packets, Instr.packets]

/-- A word with a reserved operation code does not decode (R76 (a)). -/
theorem decode_reservedOp {c : Command} (h : ReservedOp c) (nctx : Nat) : decode nctx c = .error .reservedOp := by
  unfold decode
  split
  case h_7 => rfl
  all_goals
    rename opField c.word = _ => hop
    rw [ReservedOp, hop] at h
    exact absurd h (by decide)

end Sys2Proof

namespace Sys2Proof.Machine

/-! ### How an operation ends (R75) -/

/-- An operation ends with a value that meets `P`, or raises a status other than `OK`. -/
def Answers {α : Type} (P : α → Prop) : Except Status α → Prop
  | .ok a => P a
  | .error e => e ≠ .ok

section
variable {α β : Type} {P : α → Prop} {Q : β → Prop} {r : Except Status α}

theorem Answers.bind {f : α → Except Status β} (h : Answers P r) (hf : ∀ a, P a → Answers Q (f a)) :
    Answers Q (r.bind f) := by
  cases r with
  | ok a => exact hf a h
  | error e => exact h

theorem Answers.map {f : α → β} (h : Answers P r) (hf : ∀ a, P a → Q (f a)) : Answers Q (r.map f) := by
  cases r with
  | ok a => exact hf a h
  | error e => exact h

end

theorem answers_noOperand (ps : List Packet) : Answers (fun _ => True) (noOperand ps) := by
  obtain ⟨-, h⟩ | ⟨-, h⟩ := noOperand_cases ps <;> rw [h] <;> simp [Answers]

theorem answers_oneOperand (ps : List Packet) : Answers (fun _ => True) (oneOperand ps) := by
  obtain ⟨d, -, h⟩ | ⟨-, h⟩ := oneOperand_cases ps <;> rw [h] <;> simp [Answers]

theorem answers_twoOperands (ps : List Packet) : Answers (fun _ => True) (twoOperands ps) := by
  obtain ⟨a, b, -, h⟩ | ⟨-, h⟩ := twoOperands_cases ps <;> rw [h] <;> simp [Answers]

theorem answers_feedContext (c : Context) (data : Bytes) : Answers (fun _ => True) (feedContext c data) := by
  obtain ⟨-, h⟩ | ⟨-, -, h⟩ | ⟨-, -, h⟩ := feedContext_cases c data <;> rw [h] <;> simp [Answers]

/-- `FINAL` answers 20 bytes (R180, R53). -/
theorem answers_finalContext (c : Context) : Answers (fun x => x.2.length = 20) (finalContext c) := by
  cases ho : c.phase.isOpen with
  | false => rw [finalContext_error c ho]; exact nofun
  | true => rw [finalContext_ok c ho]; exact serialise_length _

/-- `DIGEST` answers 20 bytes (R200). -/
theorem answers_digestBytes (data : Bytes) : Answers (fun b => b.length = 20) (digestBytes data) := by
  obtain ⟨-, h⟩ | ⟨-, h⟩ := digestBytes_cases data <;> rw [h]
  · exact sha1_length data
  · exact nofun

/-- `COMBINE` answers 20 bytes (R201). -/
theorem answers_combineBytes (left right : Bytes) : Answers (fun b => b.length = 20) (combineBytes left right) := by
  obtain ⟨-, -, h⟩ | ⟨-, h⟩ := combineBytes_cases left right <;> rw [h]
  · exact sha1_length _
  · exact nofun

theorem answers_keyBlock (key : Bytes) : Answers (fun _ => True) (keyBlock sha1Engine key) := by
  have short : Answers (fun _ => True) (shortKey sha1Engine key) := by
    unfold shortKey
    split
    · have long : engineDigest sha1Engine key = digestBytes key := rfl
      rw [long]
      cases h : digestBytes key with
      | ok b => trivial
      | error e => have := answers_digestBytes key; rwa [h] at this
    · trivial
  exact short.bind fun _ _ => trivial

/-- `AUTH` answers 20 bytes: its tag is the result of the outer `FINAL` (R224, R225). -/
theorem answers_hmac (data key : Bytes) : Answers (fun b => b.length = 20) (hmac sha1Engine data key) := by
  have setup : Answers (fun _ => True) (hmacSetup sha1Engine key) :=
    (answers_keyBlock key).bind fun _ _ =>
      (answers_feedContext _ _).bind fun _ _ => (answers_feedContext _ _).bind fun _ _ => trivial
  have feed (x) : Answers (fun _ => True) (hmacFeed sha1Engine x data) :=
    (answers_feedContext x.inner data).bind fun _ _ => trivial
  have final (x) : Answers (fun b => b.length = 20) (hmacFinal sha1Engine x) :=
    (answers_finalContext x.inner).bind fun _ _ =>
      (answers_feedContext x.outer _).bind fun _ _ => (answers_finalContext _).bind fun _ h => h
  exact setup.bind fun x _ => (feed x).bind fun y _ => final y

/-- A context command's operation answers as many bytes as the command's result has. -/
theorem answers_contextOp {i : Instr} {k : BitVec 4} (hk : i.selects = some k) (c : Context) :
    Answers (fun x => x.2.length = resultLength i) (contextOp i c) := by
  cases i with
  | init ctx ps => exact (answers_noOperand ps).map fun _ _ => rfl
  | feed ctx ps => exact (answers_oneOperand ps).bind fun data _ => (answers_feedContext c data).map fun _ _ => rfl
  | final ctx ps => exact (answers_noOperand ps).bind fun _ _ => answers_finalContext c
  | digest ps => cases hk
  | combine ps => cases hk
  | auth ps => cases hk

/-- A derived command's operation answers as many bytes as the command's result has. -/
theorem answers_derivedOp {i : Instr} (hk : i.selects = none) :
    Answers (fun b => b.length = resultLength i) (derivedOp i) := by
  cases i with
  | init ctx ps => cases hk
  | feed ctx ps => cases hk
  | final ctx ps => cases hk
  | digest ps => exact (answers_oneOperand ps).bind fun data _ => answers_digestBytes data
  | combine ps => exact (answers_twoOperands ps).bind fun x _ => answers_combineBytes x.1 x.2
  | auth ps => exact (answers_twoOperands ps).bind fun x _ => answers_hmac x.1 x.2

/-- The number of bytes of a command's response (R75, R250). -/
theorem response_length (i : Instr) (s : State) :
    (response i s).bytes.length = if (response i s).status = .ok then resultLength i else 0 := by
  unfold response
  cases hk : i.selects with
  | none =>
    have h := answers_derivedOp hk
    cases hd : derivedOp i with
    | ok b => rw [hd] at h; rw [effect_derived_ok hk hd]; exact h
    | error e => rw [hd] at h; rw [effect_derived_error hk hd, if_neg h]; rfl
  | some k =>
    cases hc : s.ctxs[k.toNat]? with
    | none => rw [effect_noContext hk hc]; rfl
    | some c =>
      have h := answers_contextOp hk c
      cases hop : contextOp i c with
      | ok x => rw [hop] at h; rw [effect_context_ok hk hc hop]; exact h
      | error e => rw [hop] at h; rw [effect_context_error hk hc hop, if_neg h]; rfl

end Sys2Proof.Machine

namespace Sys2Proof.EncodingProofs

open Sys2Proof Sys2Proof.Machine

/-- Settles O10: the encoding reads as the instruction, and legality is what R76 (b) checks; (c) checks the zeros the encoder
writes. -/
theorem decodeOfEncodeIsTheCommand : Obligations.DecodeOfEncodeIsTheCommand := by
  intro nctx i hl
  have h := readsAs_encode i
  cases hk : i.selects with
  | none => rw [decode_derived h hk, ctxField_encode, contextBits_derived hk, if_pos rfl]
  | some k => rw [decode_context h hk, if_pos ((legal_context hk nctx).mp hl)]

/-- Settles O11: what decodes has passed the check that fixes its `ctx` bits. -/
theorem encodeOfDecodeIsTheWord : Obligations.EncodeOfDecodeIsTheWord := by
  intro nctx c i hd
  obtain ⟨j, h⟩ | hr := readsAs_or_reservedOp c
  · cases hk : j.selects with
    | none =>
      rw [decode_derived h hk] at hd
      split at hd <;> cases hd
      next hz => exact ⟨h.encode_eq (hz.trans (contextBits_derived hk).symm), legal_derived hk nctx⟩
    | some k =>
      rw [decode_context h hk] at hd
      split at hd <;> cases hd
      next hlt => exact ⟨h.encode_eq ((h.ctx k hk).trans (contextBits_context hk).symm), (legal_context hk nctx).mpr hlt⟩
  · rw [decode_reservedOp hr] at hd; cases hd

/-- Settles O12: the three ranges of the operation code exclude each other, and within its range each clause is the check
that fails. -/
theorem illegalWordsAreTheReservedOnes : Obligations.IllegalWordsAreTheReservedOnes := by
  intro nctx c
  obtain ⟨i, h⟩ | hr := readsAs_or_reservedOp c
  · cases hk : i.selects with
    | none =>
      have hop := opcode_derived hk
      rw [decode_derived h hk, h.op]
      split
      next hz =>
        have hz' : (ctxField c.word).toNat = 0 := BitVec.toNat_eq.mp hz
        exact ⟨iff_of_false nofun (by omega), iff_of_false nofun (by omega), iff_of_false nofun (by omega)⟩
      next hz =>
        have hz' : (ctxField c.word).toNat ≠ 0 := fun h0 => hz (BitVec.toNat_eq.mpr h0)
        exact ⟨iff_of_false nofun (by omega), iff_of_false nofun (by omega), iff_of_true rfl (by omega)⟩
    | some k =>
      have hop := opcode_context hk
      rw [decode_context h hk, h.op, h.ctx k hk]
      split
      next hlt => exact ⟨iff_of_false nofun (by omega), iff_of_false nofun (by omega), iff_of_false nofun (by omega)⟩
      next hge => exact ⟨iff_of_false nofun (by omega), iff_of_true rfl (by omega), iff_of_false nofun (by omega)⟩
  · rw [decode_reservedOp hr]
    unfold ReservedOp at hr
    exact ⟨iff_of_true rfl hr, iff_of_false nofun (by omega), iff_of_false nofun (by omega)⟩

/-- Settles O43: the response is the one of the command's effect, and its operation answers that many bytes. -/
theorem everyCommandGetsOneResponse : Obligations.EveryCommandGetsOneResponse :=
  fun i s => ⟨after i s, response i s, exec_after i s, after_responses i s, after_input i s, response_length i s⟩

/-- Settles O7: `step` on a command that decodes. -/
theorem stepRunsDecodedCommand : Obligations.StepRunsDecodedCommand := step_command

/-- Settles O13: nine closed words, evaluated by the decoder. -/
theorem tableWordsDecode : Obligations.TableWordsDecode := by
  unfold Obligations.TableWordsDecode
  decide

end Sys2Proof.EncodingProofs

/-! SUPPORT. The proofs of the statements on the round primitives (40_round_primitives.md): `ROTL` as the library's rotation
(R100), the round functions bit by bit (R101 to R103), and the stage of a round (R104, R105). -/

namespace Sys2Proof.Machine

/-! ### `ROTL` (R100) -/

/-- Below the word width, `ROTL` is the library's rotation. -/
theorem rotl_eq_rotateLeft (x : Word) {n : Nat} (hn : n < 32) : rotl x n = x.rotateLeft n := by
  rw [BitVec.rotateLeft_def, Nat.mod_eq_of_lt hn, rotl]

/-- What leaves at the top lies below what moves up, so that `OR` joins the two parts as a sum. -/
theorem rotl_toNat (x : Word) {n : Nat} (hn : n ≤ 32) :
    (rotl x n).toNat = (x.toNat * 2 ^ n) % 2 ^ 32 + x.toNat / 2 ^ (32 - n) := by
  have hsplit : 2 ^ 32 = 2 ^ n * 2 ^ (32 - n) := by rw [← Nat.pow_add, Nat.add_sub_cancel' hn]
  have hlow : x.toNat / 2 ^ (32 - n) < 2 ^ n :=
    Nat.div_lt_of_lt_mul (by rw [Nat.mul_comm, ← hsplit]; exact x.isLt)
  have hhigh : (x.toNat * 2 ^ n) % 2 ^ 32 = 2 ^ n * (x.toNat % 2 ^ (32 - n)) := by
    rw [hsplit, Nat.mul_comm, Nat.mul_mod_mul_left]
  rw [rotl, BitVec.toNat_or, BitVec.toNat_shiftLeft, BitVec.toNat_ushiftRight, Nat.shiftLeft_eq,
    Nat.shiftRight_eq_div_pow, hhigh, Nat.two_pow_add_eq_or_of_lt hlow]

/-- Bit `j` of the operand is bit `(j + n) mod 32` of the result: below bit 32 it moves up, at bit 32 and above it wraps. -/
theorem rotl_getLsbD (x : Word) {n j : Nat} (hn : n < 32) (hj : j < 32) :
    (rotl x n).getLsbD ((j + n) % 32) = x.getLsbD j := by
  rw [rotl_eq_rotateLeft x hn, BitVec.getLsbD_rotateLeft, Nat.mod_eq_of_lt hn, Bool.cond_decide]
  by_cases h : j + n < 32
  · rw [Nat.mod_eq_of_lt h, if_neg (by omega), decide_eq_true h, Bool.true_and, Nat.add_sub_cancel]
  · have hwrap : (j + n) % 32 = j + n - 32 := by omega
    rw [hwrap, if_pos (by omega), show 32 - n + (j + n - 32) = j by omega]

/-! ### The round functions (R101 to R103, R107) -/

theorem ch_getLsbD (b c d : Word) {j : Nat} (hj : j < 32) :
    (ch b c d).getLsbD j = if b.getLsbD j then c.getLsbD j else d.getLsbD j := by
  rw [ch, BitVec.getLsbD_or, BitVec.getLsbD_and, BitVec.getLsbD_and, BitVec.getLsbD_not]
  cases b.getLsbD j <;> simp [hj]

theorem parity_getLsbD (b c d : Word) (j : Nat) :
    (parity b c d).getLsbD j = (b.getLsbD j ^^ c.getLsbD j ^^ d.getLsbD j) := by
  rw [parity, BitVec.getLsbD_xor, BitVec.getLsbD_xor]

/-- The majority of three bits is 1 exactly where two of them are. -/
theorem majority_eq_decide (p q r : Bool) : (p && q || p && r || q && r) = decide (2 ≤ p.toNat + q.toNat + r.toNat) := by
  revert p q r; decide

theorem maj_getLsbD (b c d : Word) (j : Nat) : (maj b c d).getLsbD j =
    decide (2 ≤ (b.getLsbD j).toNat + (c.getLsbD j).toNat + (d.getLsbD j).toNat) := by
  rw [← majority_eq_decide]
  simp only [maj, BitVec.getLsbD_or, BitVec.getLsbD_and]

/-! ### The stage of a round (R105) -/

/-- Stage `s` is the twenty rounds from `20s` on. -/
theorem stage_eq_iff {i s : Nat} : stage i = s ↔ 20 * s ≤ i ∧ i < 20 * s + 20 := by
  unfold stage; omega

end Sys2Proof.Machine

namespace Sys2Proof.RoundProofs

open Sys2Proof Sys2Proof.Machine

/-- Settles O14: the sum of the two shifted parts, and the two ways a bit can move. -/
theorem rotateLeftMovesEveryBit : Obligations.RotateLeftMovesEveryBit :=
  fun x n _ hn => ⟨rotl_toNat x (by omega), fun _ hj => rotl_getLsbD x (by omega) hj⟩

/-- Settles O15: each round function acts on every bit position alone. -/
theorem roundFunctionsBitByBit : Obligations.RoundFunctionsBitByBit :=
  fun b c d j hj => ⟨ch_getLsbD b c d hj, parity_getLsbD b c d j, maj_getLsbD b c d j⟩

/-- Settles O16: each branch is the twenty rounds of one stage. -/
theorem stageSelectionIsExact : Obligations.StageSelectionIsExact := by
  intro i hi
  split_ifs
  · rw [(stage_eq_iff (s := 0)).mpr (by omega)]; rfl
  · rw [(stage_eq_iff (s := 1)).mpr (by omega)]; rfl
  · rw [(stage_eq_iff (s := 2)).mpr (by omega)]; rfl
  · rw [(stage_eq_iff (s := 3)).mpr (by omega)]; rfl

end Sys2Proof.RoundProofs

/-! SUPPORT. The proofs of the statements on the message schedule (41_schedule_expander.md): the recurrence of the slots 16
to 79 (R121) and the linearity of the schedule over `XOR` (R121). -/

namespace Sys2Proof.Machine

/-! ### The slots of a schedule (R120, R121) -/

@[simp] theorem extendSchedule_length (k : Nat) (w : List Word) : (extendSchedule k w).length = w.length + k := by
  induction k generalizing w with
  | zero => rfl
  | succ k ih => rw [extendSchedule, ih, List.length_append, List.length_singleton]; omega

@[simp] theorem expand_length (blk : Block) : (expand blk).length = 80 := by simp [expand]

/-- The next slot after the first `i` slots of a schedule, at the places of R121. -/
theorem nextWord_take (w : List Word) {i : Nat} (hi : 16 ≤ i) (hw : i ≤ w.length) :
    nextWord (w.take i) =
      rotl (w.getD (i - 3) 0 ^^^ w.getD (i - 8) 0 ^^^ w.getD (i - 14) 0 ^^^ w.getD (i - 16) 0) 1 := by
  have slot {d : Nat} (hd : 0 < d) : (w.take i).getD (i - d) 0 = w.getD (i - d) 0 := by
    simp only [List.getD_eq_getElem?_getD, List.getElem?_take_of_lt (show i - d < i by omega)]
  rw [nextWord, List.length_take_of_le hw, slot (by omega), slot (by omega), slot (by omega), slot (by omega)]

/-- A schedule begins with the slots it extends. -/
theorem extendSchedule_take (k : Nat) (w : List Word) : (extendSchedule k w).take w.length = w := by
  induction k generalizing w with
  | zero => exact List.take_length
  | succ k ih =>
    have h := congrArg (List.take w.length) (ih (w ++ [nextWord w]))
    simpa [extendSchedule, List.take_take] using h

/-- Every slot that is added is the next one after the slots before it. -/
theorem extendSchedule_getD (k : Nat) (w : List Word) {i : Nat} (hw : w.length ≤ i) (hi : i < w.length + k) :
    (extendSchedule k w).getD i 0 = nextWord ((extendSchedule k w).take i) := by
  induction k generalizing w with
  | zero => omega
  | succ k ih =>
    obtain rfl | hlt := Nat.eq_or_lt_of_le hw
    · rw [extendSchedule_take, extendSchedule, List.getD_eq_getElem?_getD, extendSchedule_getElem? _ _ (by simp)]
      simp
    · exact ih _ (by simpa using hlt) (by simp; omega)

/-! ### Linearity over `XOR` (R121) -/

/-- `ROTL` moves every bit alone. -/
theorem rotl_xor (x y : Word) {n : Nat} (hn : n < 32) : rotl (x ^^^ y) n = rotl x n ^^^ rotl y n := by
  simp only [rotl_eq_rotateLeft _ hn]
  ext j hj
  simp only [← BitVec.getLsbD_eq_getElem, BitVec.getLsbD_rotateLeft, BitVec.getLsbD_xor]
  by_cases h : j < n % 32 <;> simp [h, hj]

/-- Past the end both strings read as zero, whose `XOR` is zero. -/
theorem getD_zipWith_xor {m : Nat} {s t : List (BitVec m)} (h : s.length = t.length) (i : Nat) :
    (s.zipWith (· ^^^ ·) t).getD i 0 = s.getD i 0 ^^^ t.getD i 0 := by
  obtain hi | hi := Nat.lt_or_ge i t.length
  · simp [hi, h]
  · simp [hi, h]

theorem be32_zipWith_xor {s t : Bytes} (h : s.length = t.length) (o : Nat) :
    be32 (s.zipWith (· ^^^ ·) t) o = be32 s o ^^^ be32 t o := by
  simp only [be32, getD_zipWith_xor h, ← BitVec.xor_append]

theorem loadWords_zipWith_xor (x y : Block) :
    loadWords (x.zipWith (· ^^^ ·) y) = (loadWords x).zipWith (· ^^^ ·) (loadWords y) := by
  have h : x.toList.length = y.toList.length := by simp
  simp [loadWords, Vector.toList_zipWith, be32_zipWith_xor h, List.zipWith_map]

theorem nextWord_zipWith_xor {v w : List Word} (h : v.length = w.length) :
    nextWord (v.zipWith (· ^^^ ·) w) = nextWord v ^^^ nextWord w := by
  have hlen : (v.zipWith (· ^^^ ·) w).length = w.length := by simp [h]
  simp only [nextWord, hlen, h, getD_zipWith_xor h]
  rw [← rotl_xor _ _ (by omega)]
  congr 1; ac_rfl

theorem extendSchedule_zipWith_xor (k : Nat) {v w : List Word} (h : v.length = w.length) :
    extendSchedule k (v.zipWith (· ^^^ ·) w) = (extendSchedule k v).zipWith (· ^^^ ·) (extendSchedule k w) := by
  induction k generalizing v w with
  | zero => rfl
  | succ k ih =>
    simp only [extendSchedule]
    rw [← ih (by simp [h]), List.zipWith_append h, nextWord_zipWith_xor h]
    rfl

theorem expand_zipWith_xor (x y : Block) :
    expand (x.zipWith (· ^^^ ·) y) = (expand x).zipWith (· ^^^ ·) (expand y) := by
  rw [expand, loadWords_zipWith_xor, extendSchedule_zipWith_xor _ (by simp)]; rfl

/-- Linearity alone gives it: a block of zeros is its own `XOR` with itself, and so is its schedule. -/
theorem expand_replicate_zero : expand (Vector.replicate 64 0) = List.replicate 80 0 := by
  have hself : (Vector.replicate 64 (0 : Byte)).zipWith (· ^^^ ·) (Vector.replicate 64 0) = Vector.replicate 64 0 := by
    simp
  have hlin := expand_zipWith_xor (Vector.replicate 64 0) (Vector.replicate 64 0)
  rw [hself, List.zipWith_self] at hlin
  simpa using hlin

end Sys2Proof.Machine

namespace Sys2Proof.ScheduleProofs

open Sys2Proof Sys2Proof.Machine

/-- Settles O18: a slot from 16 on is the next one after the slots before it. -/
theorem scheduleFollowsRecurrence : Obligations.ScheduleFollowsRecurrence := by
  refine fun blk => ⟨expand_length blk, fun i hlow hhigh => ?_⟩
  rw [← nextWord_take _ hlow (by simp; omega)]
  exact extendSchedule_getD 64 (loadWords blk) (by simpa using hlow) (by simp; omega)

/-- Settles O19: the bytes of the words and the recurrence are both linear. -/
theorem scheduleIsLinear : Obligations.ScheduleIsLinear := ⟨expand_zipWith_xor, expand_replicate_zero⟩

end Sys2Proof.ScheduleProofs

/-! SUPPORT. The proof of the statement on the compression engine (42_compression_engine.md): the working values after each
number of rounds (R131, R132), and the feed-forward of the last (R133). -/

namespace Sys2Proof.Machine

/-! ### The rounds, one at a time (R132) -/

/-- Rounds compose: the second part starts from the values, and at the number, where the first part ends. -/
theorem rounds_append (i : Nat) (ws us : List Word) (v : Working) :
    rounds i (ws ++ us) v = rounds (i + ws.length) us (rounds i ws v) := by
  induction ws generalizing i v with
  | nil => rfl
  | cons w ws ih =>
    rw [List.cons_append, rounds, ih, List.length_cons, rounds, Nat.add_right_comm, Nat.add_assoc]

/-- The working values after the first `n` rounds of a block. -/
def workingAfter (h : HashState) (blk : Block) (n : Nat) : Working := rounds 0 ((expand blk).take n) (seed h)

theorem workingAfter_zero (h : HashState) (blk : Block) : workingAfter h blk 0 = seed h := rfl

theorem workingAfter_succ (h : HashState) (blk : Block) {i : Nat} (hi : i < 80) :
    workingAfter h blk (i + 1) = roundStep i ((expand blk).getD i 0) (workingAfter h blk i) := by
  have hlen : i < (expand blk).length := by simpa using hi
  rw [workingAfter, List.take_succ_eq_append_getElem hlen, rounds_append, List.length_take_of_le hlen.le, Nat.zero_add,
    List.getD_eq_getElem _ _ hlen]
  rfl

theorem compress_eq_feedForward (h : HashState) (blk : Block) :
    compress h blk = feedForward h (workingAfter h blk 80) := by
  rw [workingAfter, List.take_of_length_le (expand_length blk).le, compress]

end Sys2Proof.Machine

namespace Sys2Proof.CompressProofs

open Sys2Proof Sys2Proof.Machine

/-- Settles O20: the values after each number of rounds are the witness. -/
theorem compressionIsEightyRounds : Obligations.CompressionIsEightyRounds :=
  fun h blk => ⟨workingAfter h blk, workingAfter_zero h blk, fun _ hi => workingAfter_succ h blk hi,
    compress_eq_feedForward h blk⟩

end Sys2Proof.CompressProofs

/-! SUPPORT. The proofs of the statements on the streaming context (43_streaming_context.md): `INIT` and `FEED` completed as
commands (R150 to R152), the bytes of `BUF` that `FEED` stores to (R151), the phases (R163), and the streaming law (R160,
R161). -/

namespace Sys2Proof.Machine

/-! ### A context command, by how its operation ends -/

section
variable {i : Instr} {s t : State} {k : BitVec 4} {c c' d : Context} {b : Bytes} {e : Status}

theorem exec_context_ok (hk : i.selects = some k) (hc : s.ctxs[k.toNat]? = some c) (hop : contextOp i c = .ok (c', b)) :
    exec i s = .next ((s.setContext k c').respond .ok b) := by
  rw [exec_context i s k c hk hc, hop]; rfl

theorem exec_context_error (hk : i.selects = some k) (hc : s.ctxs[k.toNat]? = some c) (hop : contextOp i c = .error e) :
    exec i s = .next (s.raise e) := by
  rw [exec_context i s k c hk hc, hop]; rfl

/-- After a response `OK` the selected context is what the command's operation answered. -/
theorem contextOp_of_exec_ok (hk : i.selects = some k) (hc : s.ctxs[k.toNat]? = some c) (h : exec i s = .next t)
    (hr : t.responses = s.responses ++ [⟨.ok, b⟩]) (hd : t.ctxs[k.toNat]? = some d) : contextOp i c = .ok (d, b) := by
  cases hop : contextOp i c with
  | ok x =>
    rw [exec_context_ok hk hc hop] at h
    cases h
    rw [State.respond_ctxs, State.setContext_ctxs, List.getElem?_set_self (List.getElem?_eq_some_iff.mp hc).1] at hd
    obtain rfl : x.2 = b := by simpa using hr
    rw [← Option.some.inj hd]
  | error e =>
    rw [exec_context_error hk hc hop] at h
    cases h
    have hne := answers_contextOp hk c
    rw [hop] at hne
    have he : e = .ok ∧ [] = b := by simpa using hr
    exact absurd he.1 hne

/-- Writing a context back as it was changes nothing. -/
theorem setContext_self (hc : s.ctxs[k.toNat]? = some c) : s.setContext k c = s := by
  obtain ⟨hlt, rfl⟩ := List.getElem?_eq_some_iff.mp hc
  rw [State.setContext, List.set_getElem_self]

@[simp] theorem contextOp_init (k : BitVec 4) (c : Context) : contextOp (.init k []) c = .ok (initContext c, []) := rfl

@[simp] theorem contextOp_feed (k : BitVec 4) (data : Bytes) (c : Context) :
    contextOp (.feed k [data]) c = (feedContext c data).map fun c' => (c', []) := rfl

@[simp] theorem contextOp_final (k : BitVec 4) (c : Context) : contextOp (.final k []) c = finalContext c := rfl

theorem contextOp_feed_ok_iff {data : Bytes} :
    contextOp (.feed k [data]) c = .ok (d, b) ↔ feedContext c data = .ok d ∧ b = [] := by
  rw [contextOp_feed]
  cases feedContext c data with
  | error e => exact iff_of_false nofun nofun
  | ok x => simp [Except.map, eq_comm]

theorem contextOp_feed_error {data : Bytes} (h : feedContext c data = .error e) :
    contextOp (.feed k [data]) c = .error e := by
  rw [contextOp_feed, h]; rfl

end

/-- The two phases in which `FEED` and `FINAL` are refused (R163). -/
theorem isOpen_eq_false_iff (p : Phase) : p.isOpen = false ↔ p = .uninit ∨ p = .finalized := by
  cases p <;> simp [Phase.isOpen]

/-! ### A `FEED` that is accepted (R151, R163) -/

/-- `FEED` on an open context with room is accepted (R254, R255). -/
theorem feedContext_accepted {c : Context} {data : Bytes} (ho : c.phase.isOpen = true)
    (hr : c.count.toNat + data.length ≤ Config.countMax) :
    feedContext c data = .ok (if data.length = 0 then c else absorb c data) := by
  obtain ⟨hcl, -⟩ | ⟨-, hfull, -⟩ | ⟨-, -, he⟩ := feedContext_cases c data
  · rw [ho] at hcl; cases hcl
  · omega
  · exact he

/-- `PHASE` after a `FEED` that is accepted (R163). -/
theorem feedContext_phase {c c' : Context} {data : Bytes} (h : feedContext c data = .ok c') :
    c'.phase = c.phase.afterFeed data.length := by
  obtain ⟨ho, hr⟩ := feedContext_ok_checks h
  rw [feedContext_accepted ho hr] at h
  cases h
  split
  next h0 => rw [Phase.afterFeed, if_pos h0]
  next => rfl

/-- The context with another phase and the same registers. -/
def Context.withPhase (c : Context) (p : Phase) : Context := { c with phase := p }

/-- `COUNT` increased by the length of an operand. -/
def Context.counted (c : Context) (n : Nat) : Context := { c with count := c.count + BitVec.ofNat 61 n }

/-- The effects of `FEED` as operations in order (R151). -/
theorem absorb_eq (c : Context) (data : Bytes) : absorb c data =
    (keepRemainder (feedBlocks (topUp (c.counted data.length) data) (data.drop (topUpLength c data.length)))
      (data.drop (topUpLength c data.length))).withPhase (c.phase.afterFeed data.length) := rfl

/-! ### The bytes of `BUF` that `FEED` stores to (R151) -/

/-- The three ways of topping up the buffer: there is nothing in it, the whole operand fits, or it fills and is flushed. -/
theorem topUp_cases (c : Context) (data : Bytes) (hb : c.buflen.toNat ≤ 63) :
    (c.buflen.toNat = 0 ∧ topUpLength c data.length = 0 ∧ topUp c data = c) ∨
    (topUpLength c data.length = data.length ∧ c.buflen.toNat + data.length < 64 ∧ topUp c data = appendBuffer c data) ∨
    (topUpLength c data.length = 64 - c.buflen.toNat ∧ 64 ≤ c.buflen.toNat + data.length ∧
      topUp c data = flushBuffer (appendBuffer c (data.take (64 - c.buflen.toNat)))) := by
  by_cases h0 : c.buflen.toNat = 0
  · exact .inl ⟨h0, by rw [topUpLength, if_pos h0], by rw [topUp, if_pos h0]⟩
  have hk : topUpLength c data.length = min (64 - c.buflen.toNat) data.length := by rw [topUpLength, if_neg h0]
  have htake : (data.take (topUpLength c data.length)).length = topUpLength c data.length := by
    rw [List.length_take]; omega
  have hlen := appendBuffer_buflen c (data.take (topUpLength c data.length)) (by omega)
  rw [topUp, if_neg h0]
  by_cases hfit : c.buflen.toNat + data.length < 64
  · have hall : topUpLength c data.length = data.length := by omega
    rw [if_neg (by omega), hall, List.take_length]
    exact .inr (.inl ⟨rfl, hfit, rfl⟩)
  · have hfill : topUpLength c data.length = 64 - c.buflen.toNat := by omega
    rw [if_pos (by omega), hfill]
    exact .inr (.inr ⟨rfl, by omega, rfl⟩)

/-- An append stores to the bytes at `BUFLEN` only. -/
theorem appendBuffer_outside (c : Context) (s : Bytes) (h : c.buflen.toNat + s.length ≤ 64) {j : Nat} (hj : j < 64)
    (ho : ¬ (c.buflen.toNat ≤ j ∧ j < c.buflen.toNat + s.length)) : (appendBuffer c s).buf[j] = c.buf[j] :=
  memWrite_outside c c.buflen.toNat s h j hj (by omega)

/-- The top-up stores to the `topUpLength` bytes at `BUFLEN` only. -/
theorem topUp_outside (c : Context) (data : Bytes) (hb : c.buflen.toNat ≤ 63) {j : Nat} (hj : j < 64)
    (ho : ¬ (c.buflen.toNat ≤ j ∧ j < c.buflen.toNat + topUpLength c data.length)) :
    (topUp c data).buf[j] = c.buf[j] := by
  obtain ⟨-, -, he⟩ | ⟨hk, hfit, he⟩ | ⟨hk, hfill, he⟩ := topUp_cases c data hb
  · simp only [he]
  · simp only [he]
    exact appendBuffer_outside c data (by omega) hj (by omega)
  · have htake : (data.take (64 - c.buflen.toNat)).length = 64 - c.buflen.toNat := by rw [List.length_take]; omega
    simp only [he, flushBuffer_buf]
    exact appendBuffer_outside c _ (by omega) hj (by omega)

/-- Where the top-up leaves some of the operand, it leaves the buffer empty. -/
theorem topUp_buflen (c : Context) (data : Bytes) (hb : c.buflen.toNat ≤ 63)
    (hlt : topUpLength c data.length < data.length) : (topUp c data).buflen.toNat = 0 := by
  obtain ⟨h0, -, he⟩ | ⟨hk, -⟩ | ⟨-, -, he⟩ := topUp_cases c data hb
  · rw [he, h0]
  · omega
  · rw [he, flushBuffer_buflen]; rfl

/-- The remainder goes to an empty buffer, from its start (R151). -/
theorem keepRemainder_outside (c : Context) (rest : Bytes) (hb : rest ≠ [] → c.buflen.toNat = 0) {j : Nat} (hj : j < 64)
    (ho : ¬ j < rest.length % 64) : (keepRemainder c rest).buf[j] = c.buf[j] := by
  by_cases h0 : rest.length % 64 = 0
  · simp only [keepRemainder, if_pos h0]
  · have hempty : c.buflen.toNat = 0 := hb fun hnil => h0 (by rw [hnil]; rfl)
    have hlen : (rest.drop (64 * (rest.length / 64))).length = rest.length % 64 := by rw [List.length_drop]; omega
    simp only [keepRemainder, if_neg h0]
    exact appendBuffer_outside c _ (by omega) hj (by omega)

/-- `FEED` stores to the top-up bytes and to the remainder only. -/
theorem absorb_outside (c : Context) (data : Bytes) (hb : c.buflen.toNat ≤ 63) {j : Nat} (hj : j < 64)
    (htop : ¬ (c.buflen.toNat ≤ j ∧ j < c.buflen.toNat + topUpLength c data.length))
    (hrem : ¬ j < (data.length - topUpLength c data.length) % 64) : (absorb c data).buf[j] = c.buf[j] := by
  have hrest : (data.drop (topUpLength c data.length)).length = data.length - topUpLength c data.length :=
    List.length_drop
  have hempty (hne : data.drop (topUpLength c data.length) ≠ []) :
      (topUp (c.counted data.length) data).buflen.toNat = 0 := by
    have hpos := List.length_pos_iff.mpr hne
    have hlt : topUpLength c data.length < data.length := by omega
    exact topUp_buflen (c.counted data.length) data hb hlt
  have hkeep := keepRemainder_outside
    (feedBlocks (topUp (c.counted data.length) data) (data.drop (topUpLength c data.length))) _ hempty hj (by rwa [hrest])
  exact hkeep.trans (topUp_outside (c.counted data.length) data hb hj htop)

theorem feedContext_outside {c c' : Context} {data : Bytes} (h : feedContext c data = .ok c') (hb : c.buflen.toNat ≤ 63)
    {j : Nat} (hj : j < 64) (htop : ¬ (c.buflen.toNat ≤ j ∧ j < c.buflen.toNat + topUpLength c data.length))
    (hrem : ¬ j < (data.length - topUpLength c data.length) % 64) : c'.buf[j] = c.buf[j] := by
  obtain ⟨ho, hr⟩ := feedContext_ok_checks h
  rw [feedContext_accepted ho hr] at h
  cases h
  split
  · rfl
  · exact absorb_outside c data hb hj htop hrem

/-! ### Operations on a context with another phase (R163): none of those inside `FEED` and `FINAL` reads `PHASE` -/

section
variable (c : Context) (p : Phase)

@[simp] theorem withPhase_buflen : (c.withPhase p).buflen = c.buflen := rfl

theorem flushBuffer_withPhase : flushBuffer (c.withPhase p) = (flushBuffer c).withPhase p := rfl

theorem appendBuffer_withPhase (s : Bytes) : appendBuffer (c.withPhase p) s = (appendBuffer c s).withPhase p := rfl

theorem memWrite_withPhase (a : Nat) (s : Bytes) : memWrite (c.withPhase p) a s = (memWrite c a s).withPhase p := rfl

theorem counted_withPhase (n : Nat) : (c.withPhase p).counted n = (c.counted n).withPhase p := rfl

theorem topUpLength_withPhase (n : Nat) : topUpLength (c.withPhase p) n = topUpLength c n := rfl

theorem feedBlocks_withPhase (rest : Bytes) : feedBlocks (c.withPhase p) rest = (feedBlocks c rest).withPhase p := rfl

theorem lastBlock_withPhase (v : BitVec 64) : lastBlock (c.withPhase p) v = (lastBlock c v).withPhase p := rfl

theorem topUp_withPhase (data : Bytes) : topUp (c.withPhase p) data = (topUp c data).withPhase p := by
  simp only [topUp, topUpLength_withPhase, appendBuffer_withPhase, flushBuffer_withPhase, withPhase_buflen,
    apply_ite (Context.withPhase · p)]
  rfl

theorem keepRemainder_withPhase (rest : Bytes) :
    keepRemainder (c.withPhase p) rest = (keepRemainder c rest).withPhase p := by
  simp only [keepRemainder, appendBuffer_withPhase, apply_ite (Context.withPhase · p)]

theorem spillBlock_withPhase : spillBlock (c.withPhase p) = (spillBlock c).withPhase p := by
  simp only [spillBlock, memWrite_withPhase, flushBuffer_withPhase, withPhase_buflen, apply_ite (Context.withPhase · p)]
  rfl

theorem padAndCompress_withPhase : padAndCompress (c.withPhase p) = (padAndCompress c).withPhase p := by
  rw [padAndCompress, writeMarker, appendBuffer_withPhase, spillBlock_withPhase, lastBlock_withPhase]; rfl

theorem absorb_withPhase (data : Bytes) :
    absorb (c.withPhase p) data = (absorb c data).withPhase (p.afterFeed data.length) := by
  simp only [absorb_eq, counted_withPhase, topUpLength_withPhase, topUp_withPhase, feedBlocks_withPhase,
    keepRemainder_withPhase]
  rfl

end

/-- The same error, or the same result bytes and contexts that differ in `PHASE` at most. -/
def AlikeButPhase (x y : Except Status (Context × Bytes)) : Prop :=
  (∃ e, x = .error e ∧ y = .error e) ∨ ∃ d b p, x = .ok (d, b) ∧ y = .ok (d.withPhase p, b)

theorem contextOp_feed_withPhase (k : BitVec 4) (c : Context) (data : Bytes) {p : Phase} (hp : c.phase.isOpen = p.isOpen) :
    AlikeButPhase (contextOp (.feed k [data]) c) (contextOp (.feed k [data]) (c.withPhase p)) := by
  simp only [contextOp_feed]
  obtain ⟨hcl, he⟩ | ⟨ho, hr, he⟩ | ⟨ho, hr, he⟩ := feedContext_cases c data
  · rw [he, feedContext_closed (c.withPhase p) _ (hp.symm.trans hcl)]
    exact .inl ⟨_, rfl, rfl⟩
  · rw [he, feedContext_tooLong (c.withPhase p) _ (hp.symm.trans ho) hr]
    exact .inl ⟨_, rfl, rfl⟩
  · rw [he, feedContext_accepted (c := c.withPhase p) (hp.symm.trans ho) hr, absorb_withPhase]
    split
    · exact .inr ⟨c, [], p, rfl, rfl⟩
    · exact .inr ⟨absorb c data, [], p.afterFeed data.length, rfl, rfl⟩

theorem finalContext_withPhase (c : Context) {p : Phase} (hp : c.phase.isOpen = p.isOpen) :
    AlikeButPhase (finalContext c) (finalContext (c.withPhase p)) := by
  cases ho : c.phase.isOpen with
  | false =>
    rw [finalContext_error c ho, finalContext_error (c.withPhase p) (hp.symm.trans ho)]
    exact .inl ⟨_, rfl, rfl⟩
  | true =>
    rw [finalContext_ok c ho, finalContext_ok (c.withPhase p) (hp.symm.trans ho), padAndCompress_withPhase]
    exact .inr ⟨_, _, .finalized, rfl, rfl⟩

/-- An operation sees of `PHASE` only whether it is open. -/
theorem contextOp_withPhase {i : Instr} {k : BitVec 4} (hk : i.selects = some k) (c : Context) {p : Phase}
    (hp : c.phase.isOpen = p.isOpen) : AlikeButPhase (contextOp i c) (contextOp i (c.withPhase p)) := by
  cases i with
  | init k ps =>
    obtain ⟨rfl, -⟩ | ⟨-, hbad⟩ := noOperand_cases ps
    · exact .inr ⟨initContext c, [], .initialized, rfl, rfl⟩
    · rw [contextOp, contextOp, hbad]; exact .inl ⟨_, rfl, rfl⟩
  | feed k ps =>
    obtain ⟨data, rfl, -⟩ | ⟨-, hbad⟩ := oneOperand_cases ps
    · exact contextOp_feed_withPhase k c data hp
    · rw [contextOp, contextOp, hbad]; exact .inl ⟨_, rfl, rfl⟩
  | final k ps =>
    obtain ⟨rfl, -⟩ | ⟨-, hbad⟩ := noOperand_cases ps
    · exact finalContext_withPhase c hp
    · rw [contextOp, contextOp, hbad]; exact .inl ⟨_, rfl, rfl⟩
  | digest ps => cases hk
  | combine ps => cases hk
  | auth ps => cases hk

/-! ### Runs of commands on one context (R160, R161) -/

/-- What the host issues for a command. -/
def issue (i : Instr) : HostEvent := .command (encode i)

/-- `n` steps take the first `n` events, give the responses `rs`, and leave `FAULT`, the number of contexts and every context
other than `ctx` as they were. -/
structure Ran (ctx : BitVec 4) (n : Nat) (rs : List Response) (s t : State) : Prop where
  run       : Host.Core.run core n s = .next t
  input     : t.input = s.input.drop n
  responses : t.responses = s.responses ++ rs
  fault     : t.fault = s.fault
  nctx      : t.nctx = s.nctx
  others    : ∀ m, m ≠ ctx.toNat → t.ctxs[m]? = s.ctxs[m]?

/-- `CTX[ctx]` stands in phase `p`, with the bytes `m` fed since `INIT`. -/
def Fed (ctx : BitVec 4) (p : Phase) (m : Bytes) (s : State) : Prop :=
  ∃ c, s.ctxs[ctx.toNat]? = some c ∧ c.phase = p ∧ Tracks c m

theorem Ran.refl (ctx : BitVec 4) (s : State) : Ran ctx 0 [] s s :=
  ⟨run_zero s, rfl, (List.append_nil _).symm, rfl, rfl, fun _ _ => rfl⟩

theorem Ran.trans {ctx : BitVec 4} {n m : Nat} {rs rs' : List Response} {s t u : State} (h₁ : Ran ctx n rs s t)
    (h₂ : Ran ctx m rs' t u) : Ran ctx (n + m) (rs ++ rs') s u where
  run := (run_add n m s t h₁.run).trans h₂.run
  input := by rw [h₂.input, h₁.input, List.drop_drop]
  responses := by rw [h₂.responses, h₁.responses, List.append_assoc]
  fault := h₂.fault.trans h₁.fault
  nctx := h₂.nctx.trans h₁.nctx
  others k hk := (h₂.others k hk).trans (h₁.others k hk)

/-- One command, and then the others. -/
theorem Ran.cons {ctx : BitVec 4} {n : Nat} {r : Response} {rs : List Response} {s t u : State} (h₁ : Ran ctx 1 [r] s t)
    (h₂ : Ran ctx n rs t u) : Ran ctx (n + 1) (r :: rs) s u :=
  Nat.add_comm 1 n ▸ h₁.trans h₂

/-- What a run leaves on the command port. -/
theorem Ran.input_eq {ctx : BitVec 4} {n : Nat} {rs : List Response} {s t : State} {events rest : List HostEvent}
    (h : Ran ctx n rs s t) (hin : s.input = events ++ rest) (hn : events.length = n) : t.input = rest := by
  rw [h.input, hin, ← hn, List.drop_left]

section
variable {ctx : BitVec 4} {s t : State} {m : Bytes} {p : Phase} {rest : List HostEvent}

/-- A legal command that the host has issued is executed (R77). -/
theorem step_issued {i : Instr} (hl : i.legal s.nctx = true) (hin : s.input = issue i :: rest) :
    step s = exec i { s with input := rest } :=
  step_command s (encode i) rest i hin (EncodingProofs.decodeOfEncodeIsTheCommand s.nctx i hl)

theorem run_one (h : step s = .next t) : Host.Core.run core 1 s = .next t := by
  rw [run_succ 0 s t h, run_zero]

/-- One context command whose operation succeeds. -/
theorem ran_context {i : Instr} {c c' : Context} {b : Bytes} (hk : i.selects = some ctx)
    (hin : s.input = issue i :: rest) (hc : s.ctxs[ctx.toNat]? = some c) (hop : contextOp i c = .ok (c', b)) :
    ∃ t, Ran ctx 1 [⟨.ok, b⟩] s t ∧ t.ctxs[ctx.toNat]? = some c' := by
  have hlt : ctx.toNat < s.nctx := (List.getElem?_eq_some_iff.mp hc).1
  have hstep : step s = .next (({ s with input := rest }.setContext ctx c').respond .ok b) := by
    rw [step_issued ((legal_context hk _).mpr hlt) hin]
    exact exec_context_ok (s := { s with input := rest }) hk hc hop
  refine ⟨_, ⟨run_one hstep, by rw [hin]; rfl, rfl, rfl, ?_, fun n hn => ?_⟩, List.getElem?_set_self hlt⟩
  · rw [State.respond_nctx, State.setContext_nctx]; rfl
  · exact List.getElem?_set_ne hn.symm

/-- One derived command that succeeds. -/
theorem ran_derived {i : Instr} {b : Bytes} (ctx : BitVec 4) (hk : i.selects = none) (hin : s.input = issue i :: rest)
    (hd : derivedOp i = .ok b) : ∃ t, Ran ctx 1 [⟨.ok, b⟩] s t := by
  have hstep : step s = .next ({ s with input := rest }.respond .ok b) := by
    rw [step_issued (legal_derived hk _) hin, exec_derived i _ hk, hd]; rfl
  exact ⟨_, run_one hstep, by rw [hin]; rfl, rfl, rfl, rfl, fun _ _ => rfl⟩

/-- `INIT` starts the empty message on any context (R150). -/
theorem ran_init (hctx : ctx.toNat < s.nctx) (hin : s.input = issue (.init ctx []) :: rest) :
    ∃ t, Ran ctx 1 [⟨.ok, []⟩] s t ∧ Fed ctx .initialized [] t := by
  obtain ⟨c, hc⟩ := exists_context s ctx hctx
  obtain ⟨t, hrun, ht⟩ := ran_context rfl hin hc (contextOp_init ctx c)
  exact ⟨t, hrun, initContext c, ht, rfl, tracks_initContext c⟩

/-- `FEED` appends its operand to the message (R152). -/
theorem ran_feed {x : Bytes} (hin : s.input = issue (.feed ctx [x]) :: rest) (hs : Fed ctx p m s) (ho : p.isOpen = true)
    (hr : m.length + x.length ≤ Config.countMax) :
    ∃ t, Ran ctx 1 [⟨.ok, []⟩] s t ∧ Fed ctx (p.afterFeed x.length) (m ++ x) t := by
  obtain ⟨c, hc, rfl, htr⟩ := hs
  obtain ⟨c', hf, htr', hp⟩ := tracks_feedContext c m x htr ho hr
  obtain ⟨t, hrun, ht⟩ := ran_context rfl hin hc (contextOp_feed_ok_iff.mpr ⟨hf, rfl⟩)
  exact ⟨t, hrun, c', ht, hp, htr'⟩

/-- `FINAL` answers `SHA1` of the message (R185). -/
theorem ran_final (hin : s.input = issue (.final ctx []) :: rest) (hs : Fed ctx p m s) (ho : p.isOpen = true) :
    ∃ t, Ran ctx 1 [⟨.ok, sha1 m⟩] s t := by
  obtain ⟨c, hc, rfl, htr⟩ := hs
  obtain ⟨t, hrun, -⟩ := ran_context rfl hin hc (finalContext_tracks c m htr ho)
  exact ⟨t, hrun⟩

end

theorem afterFeed_afterFeed (p : Phase) (m n : Nat) : (p.afterFeed m).afterFeed n = p.afterFeed (m + n) := by
  by_cases hm : m = 0
  · simp [Phase.afterFeed, hm]
  · simp [Phase.afterFeed, hm]

theorem messageEvents_eq (ctx : BitVec 4) (chunks : List Bytes) : messageEvents ctx chunks =
    issue (.init ctx []) :: chunks.map (fun x => issue (.feed ctx [x])) ++ [issue (.final ctx [])] := by
  simp [messageEvents, issue]

theorem messageEvents_length (ctx : BitVec 4) (chunks : List Bytes) :
    (messageEvents ctx chunks).length = chunks.length + 2 := by
  simp [messageEvents_eq]

section
variable {ctx : BitVec 4} {s : State} {rest : List HostEvent}

/-- Any chunks, one `FEED` each: their concatenation is appended to the message. -/
theorem ran_feeds (chunks : List Bytes) {m : Bytes} {p : Phase}
    (hin : s.input = chunks.map (fun x => issue (.feed ctx [x])) ++ rest) (hs : Fed ctx p m s) (ho : p.isOpen = true)
    (hr : m.length + chunks.flatten.length ≤ Config.countMax) :
    ∃ t, Ran ctx chunks.length (List.replicate chunks.length ⟨.ok, []⟩) s t ∧
      Fed ctx (p.afterFeed chunks.flatten.length) (m ++ chunks.flatten) t := by
  induction chunks generalizing s m p with
  | nil => exact ⟨s, .refl ctx s, by simpa [Phase.afterFeed] using hs⟩
  | cons x xs ih =>
    rw [List.flatten_cons, List.length_append] at hr
    obtain ⟨t, hrun, ht⟩ := ran_feed hin hs ho (by omega)
    obtain ⟨u, hrun', hu⟩ := ih (hrun.input_eq (events := [_]) hin rfl) ht (isOpen_afterFeed p x.length ho)
      (by rw [List.length_append]; omega)
    refine ⟨u, hrun.cons hrun', ?_⟩
    rwa [List.flatten_cons, List.length_append, ← afterFeed_afterFeed, ← List.append_assoc]

/-- `INIT` and any chunks, whatever the context held before (R160). -/
theorem ran_initFeeds (chunks : List Bytes) (hctx : ctx.toNat < s.nctx) (hr : chunks.flatten.length ≤ Config.countMax)
    (hin : s.input = issue (.init ctx []) :: chunks.map (fun x => issue (.feed ctx [x])) ++ rest) :
    ∃ t, Ran ctx (chunks.length + 1) (List.replicate (chunks.length + 1) ⟨.ok, []⟩) s t ∧
      Fed ctx (Phase.initialized.afterFeed chunks.flatten.length) chunks.flatten t := by
  obtain ⟨t, hrun, ht⟩ := ran_init hctx hin
  obtain ⟨u, hrun', hu⟩ := ran_feeds chunks (hrun.input_eq (events := [_]) hin rfl) ht rfl (by simpa using hr)
  exact ⟨u, hrun.cons hrun', hu⟩

/-- `INIT`, any chunks and `FINAL`: the digest is `SHA1` of their concatenation (R185). -/
theorem ran_message (chunks : List Bytes) (hctx : ctx.toNat < s.nctx) (hr : chunks.flatten.length ≤ Config.countMax)
    (hin : s.input = messageEvents ctx chunks ++ rest) :
    ∃ t, Ran ctx (chunks.length + 2)
      (List.replicate (chunks.length + 1) ⟨.ok, []⟩ ++ [⟨.ok, sha1 chunks.flatten⟩]) s t := by
  rw [messageEvents_eq, List.append_assoc] at hin
  obtain ⟨t, hrun, ht⟩ := ran_initFeeds chunks hctx hr hin
  obtain ⟨u, hrun'⟩ := ran_final (hrun.input_eq hin (by simp)) ht (isOpen_afterFeed _ _ rfl)
  exact ⟨u, hrun.trans hrun'⟩

end

/-- Two contexts in one phase that track the same message are alike to the host. -/
theorem sameContext_of_tracks {c d : Context} {m : Bytes} (hp : c.phase = d.phase) (hc : Tracks c m) (hd : Tracks d m) :
    SameContext c d := by
  refine ⟨hp, fun _ => ⟨hc.h.trans hd.h.symm, ?_, ?_, hc.buf.trans hd.buf.symm⟩⟩
  · exact BitVec.eq_of_toNat_eq (hc.count.trans hd.count.symm)
  · exact BitVec.eq_of_toNat_eq (hc.buflen.trans hd.buflen.symm)

end Sys2Proof.Machine

namespace Sys2Proof.StreamingProofs

open Sys2Proof Sys2Proof.Machine

/-! ### `INIT` and `FEED` as commands (R150 to R152) -/

/-- Settles O23: `initContext` writes out to the context of the statement. -/
theorem initCompletesInEveryPhase : Obligations.InitCompletesInEveryPhase :=
  fun _ _ c hc => exec_context_ok rfl hc (contextOp_init _ c)

/-- Settles O24: the second `INIT` of a context writes what the first wrote; of a missing context both are refused. -/
theorem initIsIdempotent : Obligations.InitIsIdempotent := by
  intro ctx s t u ht hu
  cases hc : s.ctxs[ctx.toNat]? with
  | none =>
    have hmissing : s.nctx ≤ ctx.toNat := List.getElem?_eq_none_iff.mp hc
    rw [exec_noContext _ s ctx rfl hmissing] at ht
    cases ht
    rw [exec_noContext _ (s.raise .errIllegal) ctx rfl hmissing] at hu
    cases hu
    simp [Status.setsFault]
  | some c =>
    rw [exec_context_ok rfl hc (contextOp_init ctx c)] at ht
    cases ht
    have hc' : ((s.setContext ctx (initContext c)).respond .ok []).ctxs[ctx.toNat]? = some (initContext c) :=
      List.getElem?_set_self (List.getElem?_eq_some_iff.mp hc).1
    rw [exec_context_ok rfl hc' (contextOp_init ctx _)] at hu
    cases hu
    have hself := congrArg State.ctxs (setContext_self hc')
    exact ⟨hself, rfl, rfl⟩

/-- Settles O27: an empty operand always has room, and the context is written back as it was. -/
theorem emptyFeedChangesNoRegister : Obligations.EmptyFeedChangesNoRegister := by
  intro ctx s c hc ho
  have hfeed : feedContext c [] = .ok c := feedContext_accepted ho (count_le_max c)
  rw [exec_context_ok rfl hc (contextOp_feed_ok_iff.mpr ⟨hfeed, rfl⟩), setContext_self hc]; rfl

/-- Settles O25: `feedContext_ok` as a command. -/
theorem feedFunctionalForm : Obligations.FeedFunctionalForm := by
  intro ctx data s c hc ho hb hr
  obtain ⟨c', hf, hh, hlen, hbuf, hcount, -⟩ := feedContext_ok c data ho hb hr
  exact ⟨c', exec_context_ok rfl hc (contextOp_feed_ok_iff.mpr ⟨hf, rfl⟩), hh, hlen ▸ hbuf, hlen, hcount⟩

/-- Settles O28: a `FEED` that is refused leaves the context, and one that is accepted stores where `feedContext_outside`
says. -/
theorem feedStoresOnlyItsBytes : Obligations.FeedStoresOnlyItsBytes := by
  intro ctx data s t c c' hc hb h hc' j hj htop hrem
  obtain rfl | ⟨k, b, -, -, hop⟩ := exec_contextAt h hc hc'
  · rfl
  · exact feedContext_outside (contextOp_feed_ok_iff.mp hop).1 hb hj htop hrem

/-- Settles O26: the functional form counted by lengths; with nothing pending and whole blocks only, no byte is stored. -/
theorem feedCountsBlocks : Obligations.FeedCountsBlocks := by
  intro ctx data s t c c' hc hb h hr hc'
  obtain ⟨hf, -⟩ := contextOp_feed_ok_iff.mp (contextOp_of_exec_ok rfl hc h hr hc')
  obtain ⟨ho, hroom⟩ := feedContext_ok_checks hf
  obtain ⟨x, hx, hh, hlen, -⟩ := feedContext_ok c data ho hb hroom
  obtain rfl : x = c' := Except.ok.inj (hx.symm.trans hf)
  rw [List.length_append, memRead_length c _ (by omega)] at hh hlen
  refine ⟨hh, hlen, fun hlt => ?_, fun h0 hn => ?_⟩
  · rw [hh, Nat.div_eq_of_lt hlt, compressBlocks_zero]
  · have hk : topUpLength c data.length = 0 := by rw [topUpLength, if_pos h0]
    exact Vector.ext fun j hj => feedContext_outside hf hb hj (by omega) (by omega)

/-! ### The phases (R163) -/

/-- Settles O33: the operation answers the same error, or the same bytes and contexts alike but for `PHASE`. -/
theorem openPhasesBehaveAlike : Obligations.OpenPhasesBehaveAlike := by
  intro i s ctx c hk hc hp
  have hlt := (List.getElem?_eq_some_iff.mp hc).1
  have hc' : (s.setContext ctx (c.withPhase .accum)).ctxs[ctx.toNat]? = some (c.withPhase .accum) :=
    List.getElem?_set_self hlt
  obtain ⟨e, h₁, h₂⟩ | ⟨d, b, p, h₁, h₂⟩ := contextOp_withPhase hk c (p := .accum) (by rw [hp]; rfl)
  · exact ⟨_, _, ⟨e, []⟩, c, .accum, exec_context_error hk hc h₁, exec_context_error hk hc' h₂, rfl, rfl, hc, hc'⟩
  · exact ⟨_, _, ⟨.ok, b⟩, d, p, exec_context_ok hk hc h₁, exec_context_ok hk hc' h₂, rfl, rfl,
      List.getElem?_set_self hlt, List.getElem?_set_self (List.getElem?_eq_some_iff.mp hc').1⟩

/-- Settles O32: an operation that is refused leaves `PHASE` as it was, and one that is accepted leaves the phase of R163. -/
theorem phaseTransitionTable : Obligations.PhaseTransitionTable := by
  intro ctx data s c hc
  refine ⟨?_, ?_, ?_, fun i hi => ⟨_, exec_after i s, after_ctxs_derived s hi⟩⟩
  · obtain ⟨t, hx, hd⟩ := exec_stores rfl hc (contextOp_init ctx c)
    exact ⟨t, _, hx, hd, rfl⟩
  · simp only [← isOpen_eq_false_iff]
    obtain ⟨hcl, he⟩ | ⟨ho, hr, he⟩ | ⟨ho, hr, he⟩ := feedContext_cases c data
    · refine ⟨_, c, exec_context_error rfl hc (contextOp_feed_error he), hc, ?_⟩
      rw [if_pos hcl]
    · refine ⟨_, c, exec_context_error rfl hc (contextOp_feed_error he), hc, ?_⟩
      rw [if_neg (by simp [ho]), if_pos hr]
    · obtain ⟨t, hx, hd⟩ := exec_stores rfl hc (contextOp_feed_ok_iff.mpr ⟨he, rfl⟩)
      refine ⟨t, _, hx, hd, ?_⟩
      have hopen : ¬ c.phase.isOpen = false := by simp [ho]
      rw [feedContext_phase he, if_neg hopen, if_neg (by omega), Phase.afterFeed]
  · simp only [← isOpen_eq_false_iff]
    cases ho : c.phase.isOpen with
    | false => exact ⟨_, c, exec_context_error rfl hc (finalContext_error c ho), hc, rfl⟩
    | true =>
      obtain ⟨t, hx, hd⟩ := exec_stores (i := .final ctx []) rfl hc (finalContext_ok c ho)
      exact ⟨t, _, hx, hd, rfl⟩

/-! ### The streaming law (R160, R161) -/

/-- Settles O35: both runs leave a context that tracks the whole message, in the same phase. -/
theorem streamingEquivalence : Obligations.StreamingEquivalence := by
  intro ctx chunks s1 s2 rest1 rest2 _ hr hctx1 hctx2 hin1 hin2
  obtain ⟨t1, hrun1, c1, hc1, hp1, htr1⟩ := ran_initFeeds (rest := rest1) chunks hctx1 hr (by rw [hin1]; simp [issue])
  obtain ⟨t2, hrun2, c2, hc2, hp2, htr2⟩ := ran_initFeeds (rest := rest2) [chunks.flatten] hctx2 (by simpa using hr) hin2
  rw [List.flatten_singleton] at hp2 htr2
  have hopen : (Phase.initialized.afterFeed chunks.flatten.length).isOpen = true := isOpen_afterFeed _ _ rfl
  refine ⟨t1, t2, c1, c2, hrun1.run, hrun2.run, hc1, hc2, ?_, sameContext_of_tracks (hp1.trans hp2.symm) htr1 htr2,
    _, _, sha1 chunks.flatten, exec_context_ok rfl hc1 (finalContext_tracks c1 _ htr1 (hp1 ▸ hopen)),
    exec_context_ok rfl hc2 (finalContext_tracks c2 _ htr2 (hp2 ▸ hopen)), rfl, rfl⟩
  simp only [hp1, Phase.afterFeed, List.length_eq_zero_iff]

/-- Settles O37: three digests of one message, each of them its `SHA1`. -/
theorem reuseGivesTheSameDigest : Obligations.ReuseGivesTheSameDigest := by
  intro ctx x s rest hctx hx hin
  have hx' : [x].flatten.length ≤ Config.countMax := by rwa [List.flatten_singleton]
  rw [List.append_assoc] at hin
  obtain ⟨t, hrun₁⟩ := ran_message [x] hctx hx' hin
  have hin₁ := hrun₁.input_eq hin (messageEvents_length ctx [x])
  obtain ⟨u, hrun₂⟩ := ran_message [x] (hrun₁.nctx ▸ hctx) hx' hin₁
  have hin₂ := hrun₂.input_eq hin₁ (messageEvents_length ctx [x])
  obtain ⟨v, hrun₃⟩ := ran_derived ctx rfl hin₂ (digestBytes_ok x hx)
  have hrun := (hrun₁.trans hrun₂).trans hrun₃
  rw [List.flatten_singleton] at hrun
  exact ⟨v, sha1 x, hrun.run, hrun.responses⟩

end Sys2Proof.StreamingProofs

/-! SUPPORT. The proofs of the statements on the finalizer (44_finalizer.md): the padding (R181), `FINAL` completed as a
command with the blocks it compresses (R180, R182, R183), and the digest of a streamed message (R185). -/

namespace Sys2Proof.Machine

/-- The padding has the least number of zero bytes that leaves the trailer's eight bytes to fill the block (R181). -/
theorem padZeros_le {n z : Nat} (h : (n + 1 + z) % 64 = 56) : padZeros n ≤ z := by
  unfold padZeros; omega

/-- `H` after the padding part of `FINAL`, by the number of pending bytes, with the trailer written out (R182, R54). -/
theorem padAndCompress_layout (c : Context) (hb : c.buflen.toNat ≤ 63) : (padAndCompress c).h =
    if c.buflen.toNat ≤ 55 then
      compress c.h (toBlock (memRead c 0 c.buflen.toNat ++ [0x80] ++ rep 0 (55 - c.buflen.toNat) ++
        be64Bytes (BitVec.ofNat 64 (8 * c.count.toNat))))
    else
      compress (compress c.h (toBlock (memRead c 0 c.buflen.toNat ++ [0x80] ++ rep 0 (63 - c.buflen.toNat))))
        (toBlock (rep 0 56 ++ be64Bytes (BitVec.ofNat 64 (8 * c.count.toNat)))) := by
  rw [← bitLength_eq]
  split
  next hlow => exact padAndCompress_low c hlow
  next hhigh => exact padAndCompress_high c (by omega) hb

/-- `FINAL` on an open context, as a command (R180). -/
theorem exec_final {ctx : BitVec 4} {s : State} {c : Context} (hc : s.ctxs[ctx.toNat]? = some c)
    (ho : c.phase.isOpen = true) : exec (.final ctx []) s =
      .next ((s.setContext ctx (wipeContext (padAndCompress c))).respond .ok (serialise (padAndCompress c).h)) :=
  exec_context_ok rfl hc (finalContext_ok c ho)

end Sys2Proof.Machine

namespace Sys2Proof.FinalizerProofs

open Sys2Proof Sys2Proof.Machine

/-! ### The padding (R181) -/

/-- Settles O31: the lengths are the padding's own laws, and the five values are its two ranges at their ends, the last
one modulo 64. -/
theorem paddingFillsTheLastBlock : Obligations.PaddingFillsTheLastBlock := by
  intro n
  have h0 : padZeros 0 = 55 := padZeros_low 0 (by omega)
  exact ⟨padding_length n, padded_length n, fun _ => padZeros_le, h0, padZeros_low 55 (by omega),
    padZeros_high 56 (by omega) (by omega), padZeros_high 63 (by omega) (by omega), (padZeros_mod 64).symm.trans h0⟩

/-! ### `FINAL` as a command (R180, R182, R183) -/

/-- Settles O29: the digest is of `H` after the padding, and the wipe leaves one context whatever was there. -/
theorem finalCompletesWithPaddedDigest : Obligations.FinalCompletesWithPaddedDigest := by
  intro ctx s c hc ho hb
  rw [exec_final hc ho, wipeContext_eq, padAndCompress_h c hb]; rfl

/-- Settles O30: the digest is of `H` after the padding, laid out by the number of pending bytes. -/
theorem finalCompressesOneOrTwoBlocks : Obligations.FinalCompressesOneOrTwoBlocks := by
  intro ctx s c hc ho hb
  refine ⟨_, exec_final hc ho, ?_⟩
  rw [State.respond_responses, State.setContext_responses, padAndCompress_layout c hb]; rfl

/-! ### The digest of a streamed message (R185) -/

/-- Settles O36: the run of the whole message is `ran_message`. -/
theorem streamedMessageGivesSha1 : Obligations.StreamedMessageGivesSha1 := by
  intro ctx chunks s rest hctx hr hin
  obtain ⟨t, hrun⟩ := ran_message chunks hctx hr hin
  refine ⟨t, hrun.run, ?_, hrun.input_eq hin (messageEvents_length ctx chunks), hrun.fault, hrun.others⟩
  rw [hrun.responses, List.append_assoc]

end Sys2Proof.FinalizerProofs

/-! SUPPORT. The proofs of the statements on the derived operations (45_derived_operations.md): `DIGEST` completed as a
command (R200), and `COMBINE` as `DIGEST` of the concatenation (R201, R203). -/

namespace Sys2Proof.Machine

/-! ### A derived command, by how its operation ends -/

section
variable {i : Instr} {b : Bytes} {e : Status}

theorem exec_derived_ok (hk : i.selects = none) (hop : derivedOp i = .ok b) (s : State) :
    exec i s = .next (s.respond .ok b) := by
  rw [exec_derived i s hk, hop]; rfl

theorem exec_derived_error (hk : i.selects = none) (hop : derivedOp i = .error e) (s : State) :
    exec i s = .next (s.raise e) := by
  rw [exec_derived i s hk, hop]; rfl

end

/-- An error that leaves `FAULT` alone only adds its response (R250, R251). -/
theorem State.raise_eq_respond (s : State) {e : Status} (he : e.setsFault = false) : s.raise e = s.respond e [] := by
  rw [State.raise, faultAfter, he, Bool.or_false]

theorem derivedOp_digest (data : Bytes) : derivedOp (.digest [data]) = digestBytes data := rfl

theorem derivedOp_combine (left right : Bytes) : derivedOp (.combine [left, right]) = combineBytes left right := rfl

/-- `DIGEST` within the limit of the counter, as a command (R200). -/
theorem exec_digest {data : Bytes} (h : data.length ≤ Config.countMax) (s : State) :
    exec (.digest [data]) s = .next (s.respond .ok (sha1 data)) :=
  exec_derived_ok rfl ((derivedOp_digest data).trans (digestBytes_ok data h)) s

end Sys2Proof.Machine

namespace Sys2Proof.DerivedProofs

open Sys2Proof Sys2Proof.Machine

/-- Settles O38: `DIGEST` completes within the limit, and a response is all that it adds. -/
theorem digestIsSha1 : Obligations.DigestIsSha1 := fun _ s h => exec_digest h s

/-- Settles O39, by the two ways `COMBINE` can end: on two digests it answers what `DIGEST` does, since forty bytes are
within the limit; on other lengths it is refused with an error that does not set `FAULT`. -/
theorem combineIsDigestOfConcatenation : Obligations.CombineIsDigestOfConcatenation := by
  intro a b s
  obtain ⟨ha, hb, hop⟩ | ⟨hlen, hop⟩ := combineBytes_cases a b
  · have hcombine := exec_derived_ok rfl ((derivedOp_combine a b).trans hop) s
    have hdigest := exec_digest (data := a ++ b) (by simp [ha, hb, Config.countMax]) s
    rw [if_pos ⟨ha, hb⟩]
    exact ⟨hcombine.trans hdigest.symm, hcombine⟩
  · have hcombine := exec_derived_error rfl ((derivedOp_combine a b).trans hop) s
    rw [if_neg (by omega), hcombine, State.raise_eq_respond s rfl]
    rfl

end Sys2Proof.DerivedProofs

/-! SUPPORT. The proofs of the statements on the HMAC wrapper (46_hmac_wrapper.md): the wrapper over any engine that meets the
contracts of R220 computes the one-shot form (R222 to R224, R226), the SHA-1 engine meets them (R221), and `AUTH` completed
as a command (R225). -/

namespace Sys2Proof.Machine

/-! ### The generic wrapper (R220 to R224) -/

/-- Two operations in a row succeed only where each does. -/
theorem exists_of_bind_eq_ok {α β : Type} {r : Except Status α} {f : α → Except Status β} {b : β}
    (h : r.bind f = .ok b) : ∃ a, r = .ok a ∧ f a = .ok b := by
  cases r with
  | ok a => exact ⟨a, rfl, h⟩
  | error e => cases h

section
variable {C : Type} {E : Engine C} {phase : C → Phase} {digest : Bytes → Bytes} {limit : Nat}

/-- The key made fit for the key block (R222), with `digest` the function the engine computes. -/
def fitKey (E : Engine C) (digest : Bytes → Bytes) (key : Bytes) : Bytes :=
  if key.length > E.blockSize then digest key else key

/-- The key block (R222) as a function of the key. -/
def fullKeyBlock (E : Engine C) (digest : Bytes → Bytes) (key : Bytes) : Bytes :=
  fitKey E digest key ++ rep 0 (E.blockSize - (fitKey E digest key).length)

/-- The streaming law for a message fed in two pieces. -/
theorem feed_feed_finalize (hE : LawfulEngine E phase digest limit) (c : C) (x y : Bytes) (h : x.length + y.length ≤ limit) :
    ∃ c₁ c₂ c₃, E.feed (E.init c) x = .ok c₁ ∧ E.feed c₁ y = .ok c₂ ∧ E.finalize c₂ = .ok (c₃, digest (x ++ y)) := by
  obtain ⟨c₂, c₃, hfeeds, hfin⟩ := hE.stream c [x, y] (by simpa using h)
  obtain ⟨c₁, hx, hrest⟩ := exists_of_bind_eq_ok hfeeds
  obtain ⟨c₂', hy, hend⟩ := exists_of_bind_eq_ok hrest
  cases hend
  exact ⟨c₁, c₂, c₃, hx, hy, by simpa using hfin⟩

/-- The streaming law for a message fed whole: `E.digest` (R222). -/
theorem engineDigest_ok (hE : LawfulEngine E phase digest limit) {m : Bytes} (h : m.length ≤ limit) :
    engineDigest E m = .ok (digest m) := by
  obtain ⟨c₁, c₂, hfeeds, hfin⟩ := hE.stream E.fresh [m] (by simpa using h)
  obtain ⟨c₁', hm, hend⟩ := exists_of_bind_eq_ok hfeeds
  cases hend
  rw [List.flatten_singleton] at hfin
  simp only [engineDigest, hm, hfin, bind, Except.bind, pure, Except.pure]

theorem shortKey_ok (hE : LawfulEngine E phase digest limit) {key : Bytes} (h : key.length ≤ limit) :
    shortKey E key = .ok (fitKey E digest key) := by
  unfold shortKey fitKey
  split
  · exact engineDigest_ok hE h
  · rfl

/-- A hashed key fits since `L <= B` (D25). -/
theorem fitKey_length_le (hE : LawfulEngine E phase digest limit) (key : Bytes) :
    (fitKey E digest key).length ≤ E.blockSize := by
  unfold fitKey
  split
  · exact (hE.length key).trans_le hE.fits
  next hshort => exact Nat.le_of_not_lt hshort

theorem keyBlock_ok (hE : LawfulEngine E phase digest limit) {key : Bytes} (h : key.length ≤ limit) :
    keyBlock E key = .ok (fullKeyBlock E digest key) := by
  rw [keyBlock, shortKey_ok hE h]; rfl

/-- The key block has exactly `B` bytes (R222). -/
theorem fullKeyBlock_length (hE : LawfulEngine E phase digest limit) (key : Bytes) :
    (fullKeyBlock E digest key).length = E.blockSize := by
  rw [fullKeyBlock, List.length_append, rep_length, Nat.add_sub_cancel' (fitKey_length_le hE key)]

@[simp] theorem padKey_length (v : Byte) (kb : Bytes) : (padKey v kb).length = kb.length := List.length_map _

/-- The three operations in order answer the one-shot form: each of the two contexts is fed its pad and then its message, in
two pieces (R226). -/
theorem hmac_ok (hE : LawfulEngine E phase digest limit) {data key : Bytes} (hkey : key.length ≤ limit)
    (hdata : E.blockSize + data.length ≤ limit) (hdigest : E.blockSize + E.digestSize ≤ limit) :
    hmac E data key = .ok (digest (padKey 0x5c (fullKeyBlock E digest key) ++
      digest (padKey 0x36 (fullKeyBlock E digest key) ++ data))) := by
  have hlen := fullKeyBlock_length hE key
  obtain ⟨inner, inner', inner'', hipad, hmsg, hih⟩ :=
    feed_feed_finalize hE E.fresh (padKey 0x36 (fullKeyBlock E digest key)) data (by rwa [padKey_length, hlen])
  obtain ⟨outer, outer', outer'', hopad, hinner, htag⟩ :=
    feed_feed_finalize hE E.fresh (padKey 0x5c (fullKeyBlock E digest key))
      (digest (padKey 0x36 (fullKeyBlock E digest key) ++ data)) (by rwa [padKey_length, hlen, hE.length])
  have setup : hmacSetup E key = .ok ⟨inner, outer⟩ := by
    simp only [hmacSetup, keyBlock_ok hE hkey, hipad, hopad, bind, Except.bind, pure, Except.pure]
  have feed : hmacFeed E ⟨inner, outer⟩ data = .ok ⟨inner', outer⟩ := by
    simp only [hmacFeed, hmsg, bind, Except.bind, pure, Except.pure]
  simp only [hmac, setup, feed, hmacFinal, hih, hinner, htag, bind, Except.bind, pure, Except.pure]

end

/-! ### The SHA-1 engine and `AUTH` (R221, R225) -/

/-- Any chunks fed to an open context are appended to the message it tracks (R160). -/
theorem foldlM_feedContext_tracks (chunks : List Bytes) {c : Context} {m : Bytes} (ht : Tracks c m)
    (ho : c.phase.isOpen = true) (hr : m.length + chunks.flatten.length ≤ Config.countMax) :
    ∃ c', chunks.foldlM feedContext c = .ok c' ∧ Tracks c' (m ++ chunks.flatten) ∧ c'.phase.isOpen = true := by
  induction chunks generalizing c m with
  | nil => exact ⟨c, rfl, by simpa using ht, ho⟩
  | cons x xs ih =>
    rw [List.flatten_cons, List.length_append] at hr
    obtain ⟨c₁, hx, ht₁, hp⟩ := tracks_feedContext c m x ht ho (by omega)
    obtain ⟨c₂, hxs, ht₂, ho₂⟩ := ih ht₁ (hp ▸ isOpen_afterFeed _ _ ho) (by rw [List.length_append]; omega)
    refine ⟨c₂, ?_, by rwa [List.flatten_cons, ← List.append_assoc], ho₂⟩
    rw [List.foldlM_cons, hx]; exact hxs

theorem sha1Engine_lawful : LawfulEngine sha1Engine Context.phase sha1 Config.countMax where
  blockPositive := by decide
  digestPositive := by decide
  fits := by decide
  fresh := rfl
  init := initContext_phase
  feed _ _ _ h := feedContext_phase h
  feedRefused := feedContext_closed
  finalize c ho := ⟨_, _, finalContext_ok c ho, rfl, serialise_length _⟩
  finalRefused := finalContext_error
  stream c chunks hr := by
    obtain ⟨c₁, hfeeds, ht, ho⟩ := foldlM_feedContext_tracks chunks (tracks_initContext c) rfl (by simpa using hr)
    exact ⟨c₁, _, hfeeds, finalContext_tracks c₁ _ ht ho⟩
  length := sha1_length

/-- The key block of the SHA-1 engine fills the key it chose; the generic one fills what `fitKey` answers. -/
theorem sha1KeyBlock_eq (key : Bytes) : sha1KeyBlock key = fullKeyBlock sha1Engine sha1 key :=
  (apply_ite (fun k : Bytes => k ++ rep 0 (64 - k.length)) (key.length > 64) (sha1 key) key).symm

theorem derivedOp_auth (data key : Bytes) : derivedOp (.auth [data, key]) = hmac sha1Engine data key := rfl

/-- The wrapper over the SHA-1 engine, within the limits of R225. -/
theorem hmac_sha1Engine {data key : Bytes} (hkey : key.length ≤ Config.countMax)
    (hdata : 64 + data.length ≤ Config.countMax) : hmac sha1Engine data key = .ok (sha1Hmac data key) := by
  rw [hmac_ok sha1Engine_lawful hkey hdata (by decide), sha1Hmac, sha1KeyBlock_eq]; rfl

end Sys2Proof.Machine

namespace Sys2Proof.HmacProofs

open Sys2Proof Sys2Proof.Machine

/-- Settles O41: the key block is hashed or kept and then filled, and the tag is what the two contexts answer when each is
fed its pad and its message one after the other. -/
theorem genericHmacIsOneShot : Obligations.GenericHmacIsOneShot :=
  fun _ E _ digest _ _ key hE hkey hdata hdigest =>
    ⟨fullKeyBlock E digest key, keyBlock_ok hE hkey, fullKeyBlock_length hE key, rfl, hmac_ok hE hkey hdata hdigest⟩

/-- Settles O42: the state machine is `PHASE` after each command, and the streaming law is that `FEED` appends to the message
a context tracks, whose digest `FINAL` answers. -/
theorem sha1EngineIsLawful : Obligations.Sha1EngineIsLawful := sha1Engine_lawful

/-- Settles O40: `AUTH` is the generic wrapper over the SHA-1 engine, which is lawful, and a response is all that it adds. -/
theorem authIsOneShotHmac : Obligations.AuthIsOneShotHmac :=
  fun data key s hkey hdata => exec_derived_ok rfl ((derivedOp_auth data key).trans (hmac_sha1Engine hkey hdata)) s

end Sys2Proof.HmacProofs

/-! SUPPORT. The proofs of the statements on errors and `FAULT` (60_exceptions.md): which status each command ends with (R251 to
R257), what an error keeps (R250), and `FAULT` (R258). -/

namespace Sys2Proof.Machine

/-! ### `AUTH` beyond the limits (R225, R255) -/

/-- A key too long for the counter is too long for `DIGEST`, which a key longer than a block goes through (R222). -/
theorem keyBlock_sha1Engine_error {key : Bytes} (h : Config.countMax < key.length) :
    keyBlock sha1Engine key = .error .errOverflow := by
  have hlong : key.length > sha1Engine.blockSize := lt_trans (by decide) h
  have hshort : shortKey sha1Engine key = .error .errOverflow := by
    rw [shortKey, if_pos hlong]; exact digestBytes_error key h
  rw [keyBlock, hshort]; rfl

/-- After the setup the inner context has counted the 64 bytes of its pad (R224). -/
theorem hmacSetup_sha1Engine_ok {key : Bytes} (h : key.length ≤ Config.countMax) :
    ∃ x, hmacSetup sha1Engine key = .ok x ∧ x.inner.phase.isOpen = true ∧ x.inner.count.toNat = 64 := by
  have hlen (v : Byte) : (padKey v (fullKeyBlock sha1Engine sha1 key)).length = 64 :=
    (padKey_length v _).trans (fullKeyBlock_length sha1Engine_lawful key)
  have fed (v : Byte) : ∃ c, sha1Engine.feed (sha1Engine.init sha1Engine.fresh)
      (padKey v (fullKeyBlock sha1Engine sha1 key)) = .ok c ∧ c.phase.isOpen = true ∧ c.count.toNat = 64 := by
    obtain ⟨c, hf, ht, hp⟩ := tracks_feedContext _ _ (padKey v (fullKeyBlock sha1Engine sha1 key))
      (tracks_initContext privateContext) rfl (by rw [hlen]; decide)
    exact ⟨c, hf, hp ▸ isOpen_afterFeed _ _ rfl, ht.count.trans (hlen v)⟩
  obtain ⟨inner, hinner, ho, hc⟩ := fed 0x36
  obtain ⟨outer, houter, -, -⟩ := fed 0x5c
  refine ⟨⟨inner, outer⟩, ?_, ho, hc⟩
  simp only [hmacSetup, keyBlock_ok sha1Engine_lawful h, hinner, houter, bind, Except.bind, pure, Except.pure]

/-- Everything `AUTH` can answer: the tag, or an overflow on its key or on the pad and its data (R225, R255). -/
theorem hmac_sha1Engine_cases (data key : Bytes) :
    (key.length ≤ Config.countMax ∧ 64 + data.length ≤ Config.countMax ∧
      hmac sha1Engine data key = .ok (sha1Hmac data key)) ∨
    ((Config.countMax < key.length ∨ Config.countMax < 64 + data.length) ∧
      hmac sha1Engine data key = .error .errOverflow) := by
  rcases Nat.lt_or_ge Config.countMax key.length with hkey | hkey
  · refine .inr ⟨.inl hkey, ?_⟩
    rw [hmac, hmacSetup, keyBlock_sha1Engine_error hkey]; rfl
  · rcases Nat.lt_or_ge Config.countMax (64 + data.length) with hdata | hdata
    · obtain ⟨x, hx, ho, hc⟩ := hmacSetup_sha1Engine_ok hkey
      have hfeed : sha1Engine.feed x.inner data = .error .errOverflow := feedContext_tooLong x.inner data ho (by rwa [hc])
      refine .inr ⟨.inr hdata, ?_⟩
      simp only [hmac, hx, hmacFeed, hfeed, bind, Except.bind]
    · exact .inl ⟨hkey, hdata, hmac_sha1Engine hkey hdata⟩

/-! ### The response to a command, and what an error keeps (R250) -/

theorem eq_response {i : Instr} {s t : State} {r : Response} (h : exec i s = .next t)
    (hr : t.responses = s.responses ++ [r]) : t = after i s ∧ r = response i s := by
  obtain rfl := eq_after h
  rw [after_responses] at hr
  exact ⟨rfl, by simpa using hr.symm⟩

/-- A command that ends in an error leaves what `raise` leaves. -/
theorem after_error {i : Instr} {s : State} (h : (response i s).status ≠ .ok) :
    after i s = s.raise (response i s).status := by
  unfold response at h ⊢
  unfold after response
  obtain ⟨k, c, b, -, he⟩ | ⟨b, he⟩ | ⟨e, he⟩ := effect_cases i s <;> rw [he] at h ⊢
  · exact absurd rfl h
  · exact absurd rfl h
  · rfl

/-- An error that sets `FAULT` adds its response and changes nothing else (R250, R251). -/
theorem State.raise_eq_fault (s : State) {e : Status} (he : e.setsFault = true) :
    s.raise e = { s with fault := true, responses := s.responses ++ [⟨e, []⟩] } := by
  rw [State.raise, faultAfter, he, Bool.or_true]; rfl

theorem Status.setsFault_iff (e : Status) : e.setsFault = true ↔ e = .errUsage ∨ e = .errOverflow := by
  cases e <;> simp [Status.setsFault]

/-- A command is refused whole with an error that sets `FAULT` exactly when its response has that status. -/
theorem exec_refused_iff {e : Status} (he : e.setsFault = true) (i : Instr) (s : State) :
    exec i s = .next { s with fault := true, responses := s.responses ++ [⟨e, []⟩] } ↔ (response i s).status = e := by
  constructor
  · intro h
    rw [← (eq_response h rfl).2]
  · rintro rfl
    rw [exec_after, after_error (by intro h; rw [h] at he; cases he), State.raise_eq_fault s he]

/-! ### The status a command ends with (R251 to R257) -/

/-- The status with which an operation ends. -/
def endStatus {α : Type} : Except Status α → Status
  | .ok _ => .ok
  | .error e => e

theorem response_status_context {i : Instr} {s : State} {k : BitVec 4} {c : Context} (hk : i.selects = some k)
    (hc : s.ctxs[k.toNat]? = some c) : (response i s).status = endStatus (contextOp i c) := by
  unfold response
  cases hop : contextOp i c with
  | ok x => rw [effect_context_ok hk hc hop]; rfl
  | error e => rw [effect_context_error hk hc hop]; rfl

theorem response_status_derived {i : Instr} (hk : i.selects = none) (s : State) :
    (response i s).status = endStatus (derivedOp i) := by
  unfold response
  cases hop : derivedOp i with
  | ok x => rw [effect_derived_ok hk hop]; rfl
  | error e => rw [effect_derived_error hk hop]; rfl

/-- `Ends s i e`: the status that R257 gives for the command `i` in the state `s` is `e`, with the condition that makes it the
first of its order, or with what makes none of them hold. -/
inductive Ends (s : State) : Instr → Status → Prop
  /-- (1) The command is illegal (R256). -/
  | illegal (i : Instr) (hl : i.legal s.nctx = false) : Ends s i .errIllegal
  /-- (2) The operands are not well-framed (R252). -/
  | input (i : Instr) (hl : i.legal s.nctx = true) (hn : i.packets.length ≠ i.operandCount) : Ends s i .errInput
  /-- (3) An operand of `COMBINE` is no digest (R253). -/
  | length (left right : Bytes) (hn : left.length ≠ 20 ∨ right.length ≠ 20) : Ends s (.combine [left, right]) .errLength
  /-- (4) `FEED` on a closed context (R254). -/
  | feedUsage (k : BitVec 4) (data : Bytes) (c : Context) (hc : s.ctxs[k.toNat]? = some c) (ho : c.phase.isOpen = false) :
    Ends s (.feed k [data]) .errUsage
  /-- (4) `FINAL` on a closed context (R254). -/
  | finalUsage (k : BitVec 4) (c : Context) (hc : s.ctxs[k.toNat]? = some c) (ho : c.phase.isOpen = false) :
    Ends s (.final k []) .errUsage
  /-- (5) `FEED` past `COUNT_MAX` (R255). -/
  | feedOverflow (k : BitVec 4) (data : Bytes) (c : Context) (hc : s.ctxs[k.toNat]? = some c) (ho : c.phase.isOpen = true)
    (hr : Config.countMax < c.count.toNat + data.length) : Ends s (.feed k [data]) .errOverflow
  /-- (5) `DIGEST` past `COUNT_MAX` (R255). -/
  | digestOverflow (data : Bytes) (hr : Config.countMax < data.length) : Ends s (.digest [data]) .errOverflow
  /-- (5) `AUTH` past `COUNT_MAX`, by its key or by a pad and its data (R225, R255). -/
  | authOverflow (data key : Bytes) (hr : Config.countMax < key.length ∨ Config.countMax < 64 + data.length) :
    Ends s (.auth [data, key]) .errOverflow
  | initOk (k : BitVec 4) (c : Context) (hc : s.ctxs[k.toNat]? = some c) : Ends s (.init k []) .ok
  | feedOk (k : BitVec 4) (data : Bytes) (c : Context) (hc : s.ctxs[k.toNat]? = some c) (ho : c.phase.isOpen = true)
    (hr : c.count.toNat + data.length ≤ Config.countMax) : Ends s (.feed k [data]) .ok
  | finalOk (k : BitVec 4) (c : Context) (hc : s.ctxs[k.toNat]? = some c) (ho : c.phase.isOpen = true) :
    Ends s (.final k []) .ok
  | digestOk (data : Bytes) (hr : data.length ≤ Config.countMax) : Ends s (.digest [data]) .ok
  | combineOk (left right : Bytes) (hl : left.length = 20) (hr : right.length = 20) : Ends s (.combine [left, right]) .ok
  | authOk (data key : Bytes) (hk : key.length ≤ Config.countMax) (hd : 64 + data.length ≤ Config.countMax) :
    Ends s (.auth [data, key]) .ok

theorem framed_eq_false_iff (i : Instr) : i.framed = false ↔ i.packets.length ≠ i.operandCount :=
  decide_eq_false_iff_not

theorem legal_of_exists {i : Instr} {s : State} {k : BitVec 4} {c : Context} (hk : i.selects = some k)
    (hc : s.ctxs[k.toNat]? = some c) : i.legal s.nctx = true :=
  (legal_context hk _).mpr (List.getElem?_eq_some_iff.mp hc).1

theorem legal_eq_false_iff {i : Instr} {k : BitVec 4} (hk : i.selects = some k) (nctx : Nat) :
    i.legal nctx = false ↔ nctx ≤ k.toNat := by
  rw [← Bool.not_eq_true, legal_context hk, Nat.not_lt]

/-- How a context command's operation ends on the context it selects. -/
theorem ends_contextOp {i : Instr} {s : State} {k : BitVec 4} {c : Context} (hk : i.selects = some k)
    (hc : s.ctxs[k.toNat]? = some c) : Ends s i (endStatus (contextOp i c)) := by
  have hl : i.legal s.nctx = true := legal_of_exists hk hc
  cases i with
  | init ctx ps =>
    cases hk
    obtain ⟨rfl, -⟩ | ⟨hn, hp⟩ := noOperand_cases ps
    · exact .initOk k c hc
    · rw [contextOp, hp]; exact .input _ hl hn
  | feed ctx ps =>
    cases hk
    obtain ⟨data, rfl, -⟩ | ⟨hn, hp⟩ := oneOperand_cases ps
    · rw [contextOp_feed]
      obtain ⟨ho, he⟩ | ⟨ho, hr, he⟩ | ⟨ho, hr, he⟩ := feedContext_cases c data <;> rw [he]
      · exact .feedUsage k data c hc ho
      · exact .feedOverflow k data c hc ho hr
      · exact .feedOk k data c hc ho hr
    · rw [contextOp, hp]; exact .input _ hl hn
  | final ctx ps =>
    cases hk
    obtain ⟨rfl, -⟩ | ⟨hn, hp⟩ := noOperand_cases ps
    · rw [contextOp_final]
      cases ho : c.phase.isOpen with
      | false => rw [finalContext_error c ho]; exact .finalUsage k c hc ho
      | true => rw [finalContext_ok c ho]; exact .finalOk k c hc ho
    · rw [contextOp, hp]; exact .input _ hl hn
  | digest ps => cases hk
  | combine ps => cases hk
  | auth ps => cases hk

/-- How a derived command's operation ends. -/
theorem ends_derivedOp {i : Instr} (hk : i.selects = none) (s : State) : Ends s i (endStatus (derivedOp i)) := by
  have hl : i.legal s.nctx = true := legal_derived hk _
  cases i with
  | init ctx ps => cases hk
  | feed ctx ps => cases hk
  | final ctx ps => cases hk
  | digest ps =>
    obtain ⟨data, rfl, -⟩ | ⟨hn, hp⟩ := oneOperand_cases ps
    · rw [derivedOp_digest]
      obtain ⟨hr, he⟩ | ⟨hr, he⟩ := digestBytes_cases data <;> rw [he]
      · exact .digestOk data hr
      · exact .digestOverflow data hr
    · rw [derivedOp, hp]; exact .input _ hl hn
  | combine ps =>
    obtain ⟨left, right, rfl, -⟩ | ⟨hn, hp⟩ := twoOperands_cases ps
    · rw [derivedOp_combine]
      obtain ⟨hleft, hright, he⟩ | ⟨hlen, he⟩ := combineBytes_cases left right <;> rw [he]
      · exact .combineOk left right hleft hright
      · exact .length left right hlen
    · rw [derivedOp, hp]; exact .input _ hl hn
  | auth ps =>
    obtain ⟨data, key, rfl, -⟩ | ⟨hn, hp⟩ := twoOperands_cases ps
    · rw [derivedOp_auth]
      obtain ⟨hkey, hdata, he⟩ | ⟨hr, he⟩ := hmac_sha1Engine_cases data key <;> rw [he]
      · exact .authOk data key hkey hdata
      · exact .authOverflow data key hr
    · rw [derivedOp, hp]; exact .input _ hl hn

/-- Every command ends with the status that R257 gives. -/
theorem ends_response (i : Instr) (s : State) : Ends s i (response i s).status := by
  cases hk : i.selects with
  | none => rw [response_status_derived hk]; exact ends_derivedOp hk s
  | some k =>
    cases hc : s.ctxs[k.toNat]? with
    | none =>
      rw [response, effect_noContext hk hc]
      exact .illegal i ((legal_eq_false_iff hk _).mpr (List.getElem?_eq_none_iff.mp hc))
    | some c => rw [response_status_context hk hc]; exact ends_contextOp hk hc

section
variable {i : Instr} {s : State} {k : BitVec 4} {e x : Status}

/-- `ERR_ILLEGAL` is the status of the illegal commands and of no other (R256). -/
theorem Ends.errIllegal_iff (h : Ends s i e) : e = .errIllegal ↔ i.legal s.nctx = false := by
  cases h with
  | illegal i hl => exact iff_of_true rfl hl
  | input i hl hn => exact iff_of_false nofun (by rw [hl]; nofun)
  | length | digestOverflow | authOverflow | digestOk | combineOk | authOk => exact iff_of_false nofun nofun
  | feedUsage k _ c hc | finalUsage k c hc | feedOverflow k _ c hc | initOk k c hc | feedOk k _ c hc | finalOk k c hc =>
    exact iff_of_false nofun (by rw [legal_of_exists rfl hc]; nofun)

/-- `ERR_INPUT` is the status of the legal commands with a wrong number of packets (R252). -/
theorem Ends.errInput_iff (h : Ends s i e) : e = .errInput ↔ i.legal s.nctx = true ∧ i.framed = false := by
  cases h with
  | illegal i hl => exact iff_of_false nofun (by rw [hl]; nofun)
  | input i hl hn => exact iff_of_true rfl ⟨hl, (framed_eq_false_iff i).mpr hn⟩
  | _ => exact iff_of_false nofun fun hf => absurd hf.2 nofun

/-- The first two errors of R257, `x` the status that the others give. -/
theorem Ends.eq_ite (h : Ends s i e) (hx : e ≠ .errIllegal → e ≠ .errInput → e = x) :
    e = if i.legal s.nctx = false then .errIllegal else if i.framed = false then .errInput else x := by
  split
  next hl => exact h.errIllegal_iff.mpr hl
  next hl =>
    split
    next hf => exact h.errInput_iff.mpr ⟨Bool.not_eq_false _ |>.mp hl, hf⟩
    next hf => exact hx (fun he => hl (h.errIllegal_iff.mp he)) fun he => hf (h.errInput_iff.mp he).2

/-- A context command is checked for its context, then for its packets (R257 (1), (2)). -/
theorem response_status_context_eq_ite (hk : i.selects = some k)
    (hx : ∀ e, Ends s i e → e ≠ .errIllegal → e ≠ .errInput → e = x) : (response i s).status =
    if s.nctx ≤ k.toNat then .errIllegal else if i.packets.length ≠ i.operandCount then .errInput else x :=
  ((ends_response i s).eq_ite (hx _ (ends_response i s))).trans
    (if_congr (legal_eq_false_iff hk _) rfl (if_congr (framed_eq_false_iff i) rfl rfl))

/-- A derived command is always legal, and checked for its packets first (R257 (2)). -/
theorem response_status_derived_eq_ite (hk : i.selects = none)
    (hx : ∀ e, Ends s i e → e ≠ .errIllegal → e ≠ .errInput → e = x) : (response i s).status =
    if i.packets.length ≠ i.operandCount then .errInput else x :=
  ((ends_response i s).eq_ite (hx _ (ends_response i s))).trans
    ((if_neg (by rw [legal_derived hk]; nofun)).trans (if_congr (framed_eq_false_iff i) rfl rfl))

end

/-! The statuses of each command, in the order of R257. -/

section
variable (k : BitVec 4) (ps : List Packet) (s : State)

theorem response_init_status : (response (.init k ps) s).status =
    if s.nctx ≤ k.toNat then .errIllegal else if ps.length ≠ 0 then .errInput else .ok := by
  refine response_status_context_eq_ite rfl fun e hend hlegal hframed => ?_
  cases hend with
  | illegal => exact absurd rfl hlegal
  | input => exact absurd rfl hframed
  | initOk => rfl

theorem response_feed_status : (response (.feed k ps) s).status =
    if s.nctx ≤ k.toNat then .errIllegal else if ps.length ≠ 1 then .errInput
    else if ∀ c, s.ctxs[k.toNat]? = some c → c.phase.isOpen = false then .errUsage
    else if ∀ c, s.ctxs[k.toNat]? = some c → Config.countMax < c.count.toNat + ps.flatten.length then .errOverflow
    else .ok := by
  refine response_status_context_eq_ite rfl fun e hend hlegal hframed => ?_
  cases hend with
  | illegal => exact absurd rfl hlegal
  | input => exact absurd rfl hframed
  | feedUsage _ data c hc ho => simp [hc, ho]
  | feedOverflow _ data c hc ho hr => simp [hc, ho, hr]
  | feedOk _ data c hc ho hr => simp [hc, ho, hr.not_gt]

theorem response_final_status : (response (.final k ps) s).status =
    if s.nctx ≤ k.toNat then .errIllegal else if ps.length ≠ 0 then .errInput
    else if ∀ c, s.ctxs[k.toNat]? = some c → c.phase.isOpen = false then .errUsage else .ok := by
  refine response_status_context_eq_ite rfl fun e hend hlegal hframed => ?_
  cases hend with
  | illegal => exact absurd rfl hlegal
  | input => exact absurd rfl hframed
  | finalUsage _ c hc ho => simp [hc, ho]
  | finalOk _ c hc ho => simp [hc, ho]

theorem response_digest_status : (response (.digest ps) s).status =
    if ps.length ≠ 1 then .errInput else if Config.countMax < ps.flatten.length then .errOverflow else .ok := by
  refine response_status_derived_eq_ite rfl fun e hend hlegal hframed => ?_
  cases hend with
  | illegal => exact absurd rfl hlegal
  | input => exact absurd rfl hframed
  | digestOverflow data hr => simp [hr]
  | digestOk data hr => simp [hr.not_gt]

theorem response_combine_status : (response (.combine ps) s).status =
    if ps.length ≠ 2 then .errInput else if ∃ p ∈ ps, p.length ≠ 20 then .errLength else .ok := by
  refine response_status_derived_eq_ite rfl fun e hend hlegal hframed => ?_
  cases hend with
  | illegal => exact absurd rfl hlegal
  | input => exact absurd rfl hframed
  | length left right hn => rw [if_pos (by simpa using hn)]
  | combineOk left right hl hr => simp [hl, hr]

theorem response_auth_status : (response (.auth ps) s).status =
    if ps.length ≠ 2 then .errInput
    else if Config.countMax < (ps.getD 1 []).length ∨ Config.countMax < 64 + (ps.getD 0 []).length then .errOverflow
    else .ok := by
  refine response_status_derived_eq_ite rfl fun e hend hlegal hframed => ?_
  cases hend with
  | illegal => exact absurd rfl hlegal
  | input => exact absurd rfl hframed
  | authOverflow data key hr => exact (if_pos hr).symm
  | authOk data key hk hd => exact (if_neg (not_or.mpr ⟨hk.not_gt, hd.not_gt⟩)).symm

end

/-! ### The statuses that set `FAULT` (R254, R255) -/

section
variable {s : State} {k : BitVec 4} {c : Context}

theorem response_feed_errOverflow_iff (data : Bytes) (hc : s.ctxs[k.toNat]? = some c) (ho : c.phase.isOpen = true) :
    (response (.feed k [data]) s).status = .errOverflow ↔ Config.countMax < c.count.toNat + data.length := by
  rw [response_status_context rfl hc, contextOp_feed]
  obtain ⟨hcl, he⟩ | ⟨-, hr, he⟩ | ⟨-, hr, he⟩ := feedContext_cases c data <;> rw [he]
  · rw [ho] at hcl; cases hcl
  · exact iff_of_true rfl hr
  · exact iff_of_false nofun hr.not_gt

theorem response_digest_errOverflow_iff (data : Bytes) (s : State) :
    (response (.digest [data]) s).status = .errOverflow ↔ Config.countMax < data.length := by
  rw [response_status_derived rfl, derivedOp_digest]
  obtain ⟨hr, he⟩ | ⟨hr, he⟩ := digestBytes_cases data <;> rw [he]
  · exact iff_of_false nofun hr.not_gt
  · exact iff_of_true rfl hr

theorem response_auth_errOverflow_iff (data key : Bytes) (s : State) :
    (response (.auth [data, key]) s).status = .errOverflow ↔
      Config.countMax < key.length ∨ Config.countMax < 64 + data.length := by
  rw [response_status_derived rfl, derivedOp_auth]
  obtain ⟨hkey, hdata, he⟩ | ⟨hr, he⟩ := hmac_sha1Engine_cases data key <;> rw [he]
  · exact iff_of_false nofun (by omega)
  · exact iff_of_true rfl hr

theorem response_feed_of_closed (data : Bytes) (hc : s.ctxs[k.toNat]? = some c) (ho : c.phase.isOpen = false) :
    (response (.feed k [data]) s).status = .errUsage := by
  rw [response_status_context rfl hc, contextOp_feed, feedContext_closed c data ho]; rfl

theorem response_final_of_closed (hc : s.ctxs[k.toNat]? = some c) (ho : c.phase.isOpen = false) :
    (response (.final k []) s).status = .errUsage := by
  rw [response_status_context rfl hc, contextOp_final, finalContext_error c ho]; rfl

end

/-! ### `FAULT` is not read (R258) -/

/-- The machine with `FAULT` set. -/
def State.faulted (s : State) : State := { s with fault := true }

theorem readsAlike_faulted (i : Instr) (s : State) : ReadsAlike i s.faulted s := fun _ _ => rfl

theorem after_ctxs_faulted (i : Instr) (s : State) : (after i s.faulted).ctxs = (after i s).ctxs := by
  refine List.ext_getElem? fun n => ?_
  obtain hn | ⟨ctx, hk, rfl⟩ := spares_or_selects i n
  · rw [after_ctxs_spared _ hn, after_ctxs_spared _ hn]; rfl
  · exact after_readsAlike (readsAlike_faulted i s) ctx hk

theorem after_faulted (i : Instr) (s : State) : after i s.faulted = (after i s).faulted := by
  have hfault : (after i s.faulted).fault = true := by rw [after_fault, State.faulted, Bool.true_or]
  have hresponses : (after i s.faulted).responses = (after i s).responses := by
    rw [after_responses, after_responses, response_readsAlike (readsAlike_faulted i s)]; rfl
  exact (State.mk.injEq ..).mpr ⟨after_ctxs_faulted i s, hfault, rfl, hresponses, rfl⟩

end Sys2Proof.Machine

namespace Sys2Proof.ExceptionProofs

open Sys2Proof Sys2Proof.Machine

/-- Settles O8: `ERR_ILLEGAL` does not set `FAULT`, so a response is all that `raise` adds. -/
theorem stepRefusesIllegalWord : Obligations.StepRefusesIllegalWord := by
  intro s c rest e hin hd
  rw [step_illegal s c rest e hin hd, State.raise_eq_respond _ rfl]; rfl

/-- Settles O44: each of the named statuses is the end of the commands listed. -/
theorem statusesByCommand : Obligations.StatusesByCommand := by
  intro i s t r h hr
  obtain ⟨-, rfl⟩ := eq_response h hr
  have hend := ends_response i s
  generalize (response i s).status = e at hend
  refine ⟨?_, ?_, ?_, hend.errIllegal_iff.mp, hend.errInput_iff⟩
  · rintro rfl
    cases hend with
    | length => exact ⟨_, rfl⟩
  · rintro rfl
    cases hend with
    | feedUsage => exact .inl ⟨_, _, rfl⟩
    | finalUsage => exact .inr ⟨_, _, rfl⟩
  · rintro rfl
    cases hend with
    | feedOverflow => exact .inl ⟨_, _, rfl⟩
    | digestOverflow => exact .inr (.inl ⟨_, rfl⟩)
    | authOverflow => exact .inr (.inr ⟨_, rfl⟩)

/-- Settles O45: an error leaves what `raise` leaves. -/
theorem errorsLeaveContextsUnchanged : Obligations.ErrorsLeaveContextsUnchanged := by
  intro i s t r h hr hne
  obtain ⟨rfl, rfl⟩ := eq_response h hr
  exact ⟨by rw [after_error hne, State.raise_ctxs],
    List.length_eq_zero_iff.mp ((response_length i s).trans (if_neg hne))⟩

/-- Settles O46: `FAULT` after a command is its value before, or set by the status. -/
theorem faultIsSetByUsageAndOverflowOnly : Obligations.FaultIsSetByUsageAndOverflowOnly := by
  intro i s t r h hr
  obtain ⟨rfl, rfl⟩ := eq_response h hr
  rw [after_fault, Bool.or_eq_true, Status.setsFault_iff]

/-- Settles O47: a command reads the context it selects and nothing else of the machine. -/
theorem faultChangesNoBehaviour : Obligations.FaultChangesNoBehaviour := by
  intro i s t h
  obtain rfl := eq_after h
  exact ⟨_, exec_after i s.faulted, after_faulted i s⟩

/-- Settles O48: both statuses are `ERR_USAGE`, which refuses the command whole. -/
theorem closedContextRefusesFeedAndFinal : Obligations.ClosedContextRefusesFeedAndFinal := by
  intro ctx data s c hc hp
  have ho := (isOpen_eq_false_iff c.phase).mpr hp
  exact ⟨(exec_refused_iff rfl _ s).mpr (response_feed_of_closed data hc ho),
    (exec_refused_iff rfl _ s).mpr (response_final_of_closed hc ho)⟩

/-- Settles O49: `ERR_OVERFLOW` refuses a command whole, and is its status exactly beyond the limit. -/
theorem overflowIsRefusedWhole : Obligations.OverflowIsRefusedWhole :=
  ⟨fun _ data s _ hc ho => (exec_refused_iff rfl _ s).trans (response_feed_errOverflow_iff data hc ho),
   fun data s => (exec_refused_iff rfl _ s).trans (response_digest_errOverflow_iff data s),
   fun data key s => (exec_refused_iff rfl _ s).trans (response_auth_errOverflow_iff data key s)⟩

/-- Settles O50: the command's one response has the status of the first condition that holds. -/
theorem firstErrorIsReported : Obligations.FirstErrorIsReported :=
  ⟨fun ctx ps s => ⟨_, _, exec_after _ s, after_responses _ s, response_init_status ctx ps s⟩,
   fun ctx ps s => ⟨_, _, exec_after _ s, after_responses _ s, response_feed_status ctx ps s⟩,
   fun ctx ps s => ⟨_, _, exec_after _ s, after_responses _ s, response_final_status ctx ps s⟩,
   fun ps s => ⟨_, _, exec_after _ s, after_responses _ s, response_digest_status ps s⟩,
   fun ps s => ⟨_, _, exec_after _ s, after_responses _ s, response_combine_status ps s⟩,
   fun ps s => ⟨_, _, exec_after _ s, after_responses _ s, response_auth_status ps s⟩⟩

/-- Settles O55: of the ways a command can end, the host's phase order excludes `ERR_USAGE` and its limit `ERR_OVERFLOW`, and
the others do not set `FAULT`. -/
theorem safeHostKeepsFaultClear : Obligations.SafeHostKeepsFaultClear := by
  intro i s t hs h hctx hderived
  obtain rfl := eq_after h
  rw [Safe, after_fault, hs, Bool.false_or]
  have hend := ends_response i s
  generalize (response i s).status = e at hend
  cases hend with
  | feedUsage k data c hc ho =>
    obtain ⟨⟨_, ⟨⟩⟩ | hopen, -⟩ := hctx k c rfl hc
    exact absurd (ho.symm.trans hopen) nofun
  | finalUsage k c hc ho =>
    obtain ⟨⟨_, ⟨⟩⟩ | hopen, -⟩ := hctx k c rfl hc
    exact absurd (ho.symm.trans hopen) nofun
  | feedOverflow k data c hc ho hr =>
    have hroom := (hctx k c rfl hc).2
    simp only [Instr.packets, List.flatten_singleton] at hroom
    omega
  | digestOverflow data hr =>
    have hroom := hderived.resolve_right (not_not_intro rfl)
    simp only [Instr.packets, List.flatten_singleton] at hroom
    omega
  | authOverflow data key hr =>
    have hroom := hderived.resolve_right (not_not_intro rfl)
    simp only [Instr.packets, List.flatten_cons, List.flatten_nil, List.append_nil, List.length_append] at hroom
    omega
  | _ => rfl

end Sys2Proof.ExceptionProofs

/-! SUPPORT. The proofs of the statements on reset (70_reset_and_hazards.md R290): the reset event itself, what every other
event keeps of `FAULT` and `PHASE`, and the wait when no event is there. -/

namespace Sys2Proof.Machine

/-! ### What a command keeps of `FAULT` and `PHASE` (R258, R290) -/

/-- A command that succeeds on its context leaves it in another phase than `UNINIT` (R163). -/
theorem contextOp_phase_ne_uninit {i : Instr} {k : BitVec 4} {c d : Context} {b : Bytes} (hk : i.selects = some k)
    (h : contextOp i c = .ok (d, b)) : d.phase ≠ .uninit := by
  obtain ⟨-, -, rfl, -⟩ | ⟨-, data, -, hf, -⟩ | ⟨-, -, -, rfl, -⟩ | ⟨hsel, -⟩ := contextOp_ok_cases h
  · rw [initContext_phase]; nofun
  · obtain ⟨ho, -⟩ := feedContext_ok_checks hf
    have hopen : d.phase.isOpen = true := feedContext_phase hf ▸ isOpen_afterFeed _ _ ho
    intro hu
    rw [hu] at hopen; cases hopen
  · rw [wipeContext_eq]; nofun
  · rw [hsel] at hk; cases hk

/-- No command returns a context to `UNINIT`. -/
theorem exec_uninit {i : Instr} {s t : State} {n : Nat} {c d : Context} (h : exec i s = .next t)
    (hc : s.ctxs[n]? = some c) (hd : t.ctxs[n]? = some d) (hu : d.phase = .uninit) : c.phase = .uninit := by
  obtain rfl | ⟨k, b, hk, -, hop⟩ := exec_contextAt h hc hd
  · exact hu
  · exact absurd hu (contextOp_phase_ne_uninit hk hop)

/-- No command clears `FAULT`. -/
theorem exec_fault {i : Instr} {s t : State} (h : exec i s = .next t) (hf : s.fault = true) : t.fault = true := by
  rw [eq_after h, after_fault, hf, Bool.true_or]

/-! ### The reset event (R290) -/

/-- A reset event leaves every context in `UNINIT`. -/
theorem applyReset_uninit {s : State} {c : Context} (h : c ∈ s.applyReset.ctxs) : c.phase = .uninit := by
  rw [State.applyReset_ctxs, List.mem_map] at h
  obtain ⟨n, -, rfl⟩ := h
  exact unspecifiedContext_phase _ n

end Sys2Proof.Machine

namespace Sys2Proof.ResetProofs

open Sys2Proof Sys2Proof.Machine

/-- Settles O6: a step that takes no reset event waits, answers an illegal word, or executes a command. -/
theorem onlyResetClearsFaultOrReturnsToUninit : Obligations.OnlyResetClearsFaultOrReturnsToUninit := by
  intro s t h hne
  obtain ⟨-, hx⟩ | ⟨rest, hs, -⟩ | ⟨w, rest, e, -, -, hx⟩ | ⟨w, rest, i, -, -, hx⟩ := step_cases s
  · obtain rfl : s = t := Host.Outcome.next.inj (hx.symm.trans h)
    exact ⟨id, fun n c d hc hd hu => Option.some.inj (hd.symm.trans hc) ▸ hu⟩
  · exact absurd (by rw [hs]; rfl) hne
  · obtain rfl := Host.Outcome.next.inj (hx.symm.trans h)
    exact ⟨fun hf => by simp [hf], fun n c d hc hd hu => Option.some.inj (hd.symm.trans hc) ▸ hu⟩
  · have hexec := hx.symm.trans h
    exact ⟨exec_fault (s := { s with input := rest }) hexec,
      fun _ _ _ => exec_uninit (s := { s with input := rest }) hexec⟩

/-- Settles O5: the step is `applyReset` on the state without the event. -/
theorem resetEventClearsFaultAndPhases : Obligations.ResetEventClearsFaultAndPhases := by
  intro s rest hs
  exact ⟨_, step_reset s rest hs, State.applyReset_nctx _, fun _ => applyReset_uninit, rfl, rfl, rfl⟩

/-- Settles O9: with no event on the port, `step` answers its own state. -/
theorem stepWaitsWithoutCommand : Obligations.StepWaitsWithoutCommand :=
  step_idle

end Sys2Proof.ResetProofs
